-- ==== Sys2Proof/Syntax.lean ====
section
/-! DEFINITION. The commands of varint_codec, one constructor per row of `spec/opcode_table.json`
(`spec/30_encoding.md` R81). No command has an operand in its word: operands come from fixed registers (R85). -/

namespace Sys2Proof

/-- The ten legal commands (R81). A word that is none of them is an illegal command, which is no constructor here:
it has no row, and what it does is `Machine.illegalCommand` (`spec/43_control.md` R173). -/
inductive Instr where
  /-- no operation (R170) -/
  | nop
  /-- varint encode (R103) -/
  | enc
  /-- varint decode at OFFSET (R126) -/
  | dec
  /-- varint decode and advance OFFSET (R127) -/
  | deca
  /-- ZigZag encode, 32-bit (R154) -/
  | zze32
  /-- ZigZag encode, 64-bit (R155) -/
  | zze64
  /-- ZigZag decode, 32-bit (R156) -/
  | zzd32
  /-- ZigZag decode, 64-bit (R157) -/
  | zzd64
  /-- clear STATUS (R171) -/
  | clrs
  /-- soft reset (R172) -/
  | srst
deriving DecidableEq, Repr

end Sys2Proof
end

