-- ==== Sys2Proof/Word.lean ====
section
/-! DEFINITION. The word types of varint_codec: the 64-bit bus and register word (`spec/00_scope.md` R7), the
byte of the two buffers, and the 13-bit word address of the host bus (`spec/20_memory.md` R60). -/

namespace Sys2Proof

/-- A 64-bit word, the value width of the codec and the data width of the host bus (R6, R7). -/
abbrev Word := BitVec 64

/-- One byte of IBUF or EBUF (R7). -/
abbrev Byte := BitVec 8

/-- A 13-bit word address of the host bus (R60). -/
abbrev BusAddr := BitVec 13

end Sys2Proof
end

