-- ==== Sys2Proof/Decode.lean ====
section
/-! DEFINITION. The command decoder (`spec/30_encoding.md` R87), its second form as a table of masks and matches
(R87, `spec/opcode_table.json`), and the encoder (R90). A command is one 64-bit word written to CMD, not bytes in a
memory (`spec/20_memory.md` R73), so there is no byte order and no length to find (R86). -/

namespace Sys2Proof

/-- Why a word is no command. Both give the illegal-command behaviour of R173, which is a next state. -/
inductive IllegalWord where
  /-- bits 63:8 are not all zero (R82) -/
  | reservedBitsSet
  /-- bits 63:8 are zero and OPCODE is a reserved value (R83) -/
  | reservedOpcode
deriving DecidableEq, Repr

/-- OPCODE, bits 7:0 (R80). -/
def opcodeField (d : Word) : Byte := d.extractLsb' 0 8

/-- RSV, bits 63:8 (R80). -/
def reservedField (d : Word) : BitVec 56 := d.extractLsb' 8 56

/-- The command an OPCODE value selects when RSV is zero (R81, R83). -/
def commandOfOpcode (op : Byte) : Except IllegalWord Instr :=
  if op = 0x00#8 then .ok .nop
  else if op = 0x01#8 then .ok .enc
  else if op = 0x02#8 then .ok .dec
  else if op = 0x03#8 then .ok .deca
  else if op = 0x04#8 then .ok .zze32
  else if op = 0x05#8 then .ok .zze64
  else if op = 0x06#8 then .ok .zzd32
  else if op = 0x07#8 then .ok .zzd64
  else if op = 0x08#8 then .ok .clrs
  else if op = 0x0F#8 then .ok .srst
  else .error .reservedOpcode

/-- The decoder: total, RSV first, then OPCODE (R87). -/
def decode (d : Word) : Except IllegalWord Instr :=
  if reservedField d ≠ 0#56 then .error .reservedBitsSet else commandOfOpcode (opcodeField d)

/-- A row of the opcode table in its mask and match form (R87). -/
structure OpcodeRow where
  instr : Instr
  mask : Word
  pattern : Word
deriving DecidableEq, Repr

/-- The ten rows of `spec/opcode_table.json`. -/
def opcodeTable : List OpcodeRow :=
  [ ⟨.nop, 0xFFFFFFFFFFFFFFFF#64, 0x0000000000000000#64⟩
  , ⟨.enc, 0xFFFFFFFFFFFFFFFF#64, 0x0000000000000001#64⟩
  , ⟨.dec, 0xFFFFFFFFFFFFFFFF#64, 0x0000000000000002#64⟩
  , ⟨.deca, 0xFFFFFFFFFFFFFFFF#64, 0x0000000000000003#64⟩
  , ⟨.zze32, 0xFFFFFFFFFFFFFFFF#64, 0x0000000000000004#64⟩
  , ⟨.zze64, 0xFFFFFFFFFFFFFFFF#64, 0x0000000000000005#64⟩
  , ⟨.zzd32, 0xFFFFFFFFFFFFFFFF#64, 0x0000000000000006#64⟩
  , ⟨.zzd64, 0xFFFFFFFFFFFFFFFF#64, 0x0000000000000007#64⟩
  , ⟨.clrs, 0xFFFFFFFFFFFFFFFF#64, 0x0000000000000008#64⟩
  , ⟨.srst, 0xFFFFFFFFFFFFFFFF#64, 0x000000000000000F#64⟩ ]

/-- Whether word `d` selects a row: `(d & mask) == match` (R87). -/
def OpcodeRow.selects (r : OpcodeRow) (d : Word) : Bool := d &&& r.mask == r.pattern

/-- The decoder in its mask and match form (R87). -/
def decodeByTable (d : Word) : Option Instr :=
  (opcodeTable.find? fun r => r.selects d).map fun r => r.instr

/-- The command word of each command (R90). -/
def encode : Instr → Word
  | .nop => 0x0000000000000000#64
  | .enc => 0x0000000000000001#64
  | .dec => 0x0000000000000002#64
  | .deca => 0x0000000000000003#64
  | .zze32 => 0x0000000000000004#64
  | .zze64 => 0x0000000000000005#64
  | .zzd32 => 0x0000000000000006#64
  | .zzd64 => 0x0000000000000007#64
  | .clrs => 0x0000000000000008#64
  | .srst => 0x000000000000000F#64

/-- The command word whose low `nbits` bits are those of `w`, every higher bit zero. -/
def tableWord (nbits w : Nat) : Word := BitVec.ofNat 64 (w % 2 ^ nbits)

/-- What the decoder reads from the instruction whose bits are `w`, numbered as `spec/opcode_table.json` numbers
them. -/
def decodeTableWord (nbits w : Nat) : Option Instr :=
  match decode (tableWord nbits w) with
  | .ok i => some i
  | .error _ => none

end Sys2Proof
end

