-- ==== Sys2Proof/Config.lean ====
section
/-! DEFINITION. What is fixed when the block is built: the one parameter IBUF_SIZE (`spec/00_scope.md` R6,
`spec/93_implementation_defined.md` U2). The spec leaves no value free for ever: there is no opaque constant. -/

namespace Sys2Proof

/-- The sizes R6 allows for IBUF: a multiple of 8 from 16 to 32768 bytes. -/
def legalIbufSize (n : Nat) : Bool :=
  n % 8 == 0 && Nat.ble 16 n && Nat.ble n 32768

/-- The build parameters. The proofs go with the number, so that every `Config` is one the spec allows (R6). -/
structure Config where
  ibufSize : Nat
  multipleOfEight : ibufSize % 8 = 0
  atLeast : 16 ≤ ibufSize
  atMost : ibufSize ≤ 32768
deriving DecidableEq, Repr

/-- The default build, IBUF_SIZE = 256 (R6). -/
def Config.standard : Config :=
  { ibufSize := 256, multipleOfEight := by decide, atLeast := by decide, atMost := by decide }

/-- The build with `n` bytes of IBUF, where R6 allows it. -/
def Config.ofSize? (n : Nat) : Option Config :=
  if h : n % 8 = 0 ∧ 16 ≤ n ∧ n ≤ 32768 then some ⟨n, h.1, h.2.1, h.2.2⟩ else none

/-- How many bus words IBUF takes (R63). -/
def Config.ibufWords (c : Config) : Nat := c.ibufSize / 8

end Sys2Proof
end

