-- ==== Sys2Proof/Machine/State.lean ====
section
/-! DEFINITION. The state of varint_codec and of its host, as plain data, and the state right after power-on reset.
The block's registers are those of `spec/10_state.md` R20; the host is the second agent of `spec/00_scope.md` R10. -/

namespace Sys2Proof.Machine

/-- The error kinds of the block (`spec/60_exceptions.md` R190 to R192). An error is recorded in STATUS and is no
trap (R197), so none of these is a `Fault`. -/
inductive ErrorKind where
  /-- the buffer ends before a terminator (R190) -/
  | truncatedInput
  /-- the varint does not fit in 64 bits (R191) -/
  | overflow
  /-- the word written to CMD is no command (R192) -/
  | illegalCommand
deriving DecidableEq, Repr

/-- The fields of STATUS, each at its full width (`spec/10_state.md` R25, R29). -/
structure Status where
  /-- bits 1:0, outcome of the last decode (R27) -/
  dstate : BitVec 2
  /-- bits 7:4, error kind of the last command other than NOP (R26) -/
  err : BitVec 4
  /-- bit 8, an error has occurred since the last CLRS or reset (R28) -/
  sticky : Bool
deriving DecidableEq, Repr

/-- A byte memory: (index, byte) pairs, indices strictly rising. A byte that is not listed has no value: it is an
unwritten byte (`spec/20_memory.md` R76). -/
abbrev Memory := List Host.Cell

/-- One host access of the bus (`spec/20_memory.md` R61, R62). -/
inductive BusAccess where
  | read (a : BusAddr)
  | write (a : BusAddr) (d : Word)
deriving DecidableEq, Repr

/-- What the outside can do to the block between two steps: a bus access, or power-on reset
(`spec/70_reset_and_hazards.md` R220, `spec/93_implementation_defined.md` U11). -/
inductive HostEvent where
  | access (b : BusAccess)
  | powerOnReset
deriving DecidableEq, Repr

/-- The whole state. `config`, `hostQueue` and `hostReads` are the model's own fields (log entries 2 and 3), the rest
is the architectural state of R20. ID and CMD have no storage (R30, R31). -/
structure State where
  /-- the build parameters (R6); no step writes them -/
  config : Config
  /-- IN (R21) -/
  inReg : Word
  /-- OUT (R22) -/
  out : Word
  /-- CNT (R23) -/
  cnt : BitVec 4
  /-- ELEN (R24) -/
  elen : BitVec 4
  /-- OFFSET (R32) -/
  offset : BitVec 16
  /-- ILEN (R33) -/
  ilen : BitVec 16
  /-- STATUS (R25) -/
  status : Status
  /-- EBUF, the encoder byte buffer (R34) -/
  ebuf : Vector Byte 10
  /-- IBUF, the decoder input buffer, with its written marks (R35, R76) -/
  ibuf : Memory
  /-- the host's pending events, oldest first -/
  hostQueue : List HostEvent
  /-- the words the host's reads returned, in order (R224) -/
  hostReads : List Word
deriving DecidableEq, Repr

/-- Why the machine stops. R76 of `spec/20_memory.md` asks for both, and nothing else stops it. -/
inductive Fault where
  /-- Raised by DEC and DECA when the decode reads IBUF byte `index`, which no bus write has covered since power-on
  reset (R76, R125). SAFE: the hardware goes on with some byte. -/
  | decodeReadsUnwritten (index : Nat)
  /-- Raised by a bus read of IBUF word `word` that holds an unwritten byte (R76). SAFE: the hardware returns some
  word. -/
  | busReadsUnwritten (word : Nat)
deriving DecidableEq, Repr

/-- Why an instruction has no meaning. -/
inductive Refusal where
  /-- Raised only by an arm of `exec` for an instruction that is not modelled; no arm does. SAFE. -/
  | notModelled (mnemonic : String)
deriving DecidableEq, Repr

/-- STATUS after reset: DSTATE = IDLE, ERR = NONE, STICKY = 0 (R40). -/
def Status.reset : Status := { dstate := 0#2, err := 0#4, sticky := false }

/-- The state after power-on reset of a block built with `c` (`spec/10_state.md` R40,
`spec/70_reset_and_hazards.md` R220), with a host that has issued nothing. -/
def State.powerOn (c : Config) : State :=
  { config := c
    inReg := 0#64
    out := 0#64
    cnt := 0#4
    elen := 0#4
    offset := 0#16
    ilen := 0#16
    status := Status.reset
    ebuf := Vector.replicate 10 0#8
    ibuf := []
    hostQueue := []
    hostReads := [] }

/-- The state after power-on reset of the default build (R40, R6). -/
def State.reset : State := State.powerOn Config.standard

end Sys2Proof.Machine
end

