-- ==== Sys2Proof/Machine/Flags.lean ====
section
/-! DEFINITION. The STATUS computations (`spec/10_state.md` R25 to R29): the codes, the word a read returns, and
what a success, an error and a clear make of the three fields. STATUS is the only flag state (R37). -/

namespace Sys2Proof.Machine

/-- DSTATE = IDLE (R27). -/
def dstateIdle : BitVec 2 := 0#2

/-- DSTATE = TERMINATED (R27). -/
def dstateTerminated : BitVec 2 := 1#2

/-- DSTATE = ERROR (R27). -/
def dstateError : BitVec 2 := 2#2

/-- ERR = NONE (R26). -/
def errNone : BitVec 4 := 0#4

/-- The ERR code of each error kind (R26, R190 to R192). -/
def ErrorKind.code : ErrorKind → BitVec 4
  | .truncatedInput => 1#4
  | .overflow => 2#4
  | .illegalCommand => 3#4

/-- Whether the kind is raised by the decoder, and so also sets DSTATE and clears CNT (R193). -/
def ErrorKind.isDecodeError : ErrorKind → Bool
  | .truncatedInput => true
  | .overflow => true
  | .illegalCommand => false

/-- The word a bus read of STATUS returns: `zext_64({STICKY, ERR, 0b00, DSTATE})` (R29). -/
def Status.word (st : Status) : Word :=
  (BitVec.ofBool st.sticky ++ st.err ++ 0#2 ++ st.dstate).setWidth 64

/-- STATUS after a command that succeeds and is no decode: ERR = NONE, the rest unchanged (R26). -/
def Status.succeeded (st : Status) : Status := { st with err := errNone }

/-- STATUS after a decode that succeeds: DSTATE = TERMINATED, ERR = NONE, STICKY unchanged (R126). -/
def Status.terminated (st : Status) : Status := { st with dstate := dstateTerminated, err := errNone }

/-- STATUS after `raise e` (R193). -/
def Status.raised (e : ErrorKind) (st : Status) : Status :=
  { dstate := if e.isDecodeError then dstateError else st.dstate
    err := e.code
    sticky := true }

/-- STATUS after CLRS and SRST (R171, R172). -/
def Status.cleared : Status := { dstate := dstateIdle, err := errNone, sticky := false }

end Sys2Proof.Machine
end

