-- ==== Sys2Proof/Machine/Ops.lean ====
section
/-! DEFINITION. The named operations over memory and registers: reading and writing bytes and words of a byte buffer
(`spec/20_memory.md` R65, R76), the register writes, the clamp of OFFSET and ILEN (`spec/10_state.md` R42, R43), the
identification word (R30), and `raise`, the one operation that records an error (`spec/60_exceptions.md` R193). There
is no return from an error: the block goes on by itself (R198). -/

namespace Sys2Proof.Machine

/-! ### Bytes and words -/

/-- Byte `i` of a word: bits `8i+7:8i` (R65). -/
def byteOf (d : Word) (i : Nat) : Byte := d.extractLsb' (8 * i) 8

/-- The eight bytes of a word, byte 0 first (R65). -/
def unpackWord (d : Word) : List Byte :=
  [byteOf d 0, byteOf d 1, byteOf d 2, byteOf d 3, byteOf d 4, byteOf d 5, byteOf d 6, byteOf d 7]

/-- At most eight bytes as a word, byte 0 in the low bits, missing bytes zero (R65). -/
def packWord : List Byte → Word
  | [] => 0#64
  | b :: bs => b.setWidth 64 ||| (packWord bs <<< 8)

/-! ### Byte memory -/

/-- The byte at index `k`, or none where it is unwritten (R76). -/
def Memory.read : Memory → Nat → Option Byte
  | [], _ => none
  | (a, b) :: rest, k => if a = k then some b else Memory.read rest k

/-- Store byte `v` at index `k`, keeping the indices strictly rising. -/
def Memory.write : Memory → Nat → Byte → Memory
  | [], k, v => [(k, v)]
  | (a, b) :: rest, k, v =>
    if k < a then (k, v) :: (a, b) :: rest
    else if k = a then (k, v) :: rest
    else (a, b) :: Memory.write rest k v

/-- The canonical form: indices strictly rising. An unlisted byte has no value, so no entry can equal it. -/
def Memory.wf : Memory → Bool
  | [] => true
  | [_] => true
  | (a, _) :: (b, v) :: rest => Nat.blt a b && Memory.wf ((b, v) :: rest)

/-- Store a run of bytes from index `k` up. -/
def Memory.writeRun (m : Memory) (k : Nat) : List Byte → Memory
  | [] => m
  | b :: bs => Memory.writeRun (Memory.write m k b) (k + 1) bs

/-- The `n` bytes from index `k` up, or none where one of them is unwritten. -/
def Memory.readRun (m : Memory) (k : Nat) : Nat → Option (List Byte)
  | 0 => some []
  | n + 1 =>
    match Memory.read m k, Memory.readRun m (k + 1) n with
    | some b, some bs => some (b :: bs)
    | _, _ => none

/-- Word `j`: bytes `8j` to `8j+7`, or none where one of them is unwritten (R65, R76). -/
def Memory.readWord (m : Memory) (j : Nat) : Option Word :=
  (Memory.readRun m (8 * j) 8).map packWord

/-- Store word `j`: all eight bytes (R65, R68). -/
def Memory.writeWord (m : Memory) (j : Nat) (d : Word) : Memory :=
  Memory.writeRun m (8 * j) (unpackWord d)

/-! ### Register writes, one per field -/

def State.setIn (s : State) (v : Word) : State := { s with inReg := v }
def State.setOut (s : State) (v : Word) : State := { s with out := v }
def State.setCnt (s : State) (v : BitVec 4) : State := { s with cnt := v }
def State.setElen (s : State) (v : BitVec 4) : State := { s with elen := v }
def State.setOffset (s : State) (v : BitVec 16) : State := { s with offset := v }
def State.setIlen (s : State) (v : BitVec 16) : State := { s with ilen := v }
def State.setStatus (s : State) (v : Status) : State := { s with status := v }
def State.setEbuf (s : State) (v : Vector Byte 10) : State := { s with ebuf := v }
def State.setIbuf (s : State) (v : Memory) : State := { s with ibuf := v }
def State.setQueue (s : State) (v : List HostEvent) : State := { s with hostQueue := v }

/-- Append one word to what the host has read (R224). -/
def State.addRead (s : State) (v : Word) : State := { s with hostReads := s.hostReads ++ [v] }

/-- `min(d, IBUF_SIZE)`, what a write of `d` to OFFSET or ILEN stores (R42, R43). -/
def clampToIbuf (c : Config) (d : Word) : BitVec 16 := BitVec.ofNat 16 (min d.toNat c.ibufSize)

/-- ID: `{0x56415249, 0x00, VERSION = 0x01, IBUF_SIZE[15:0]}` (R30). -/
def idWord (c : Config) : Word := 0x56415249#32 ++ 0x00#8 ++ 0x01#8 ++ BitVec.ofNat 16 c.ibufSize

/-- The ten bytes of EBUF after ENC has produced `bs`: the bytes of `bs`, then zeros (R34, R103). -/
def ebufOf (bs : List Byte) : Vector Byte 10 :=
  #v[bs.getD 0 0#8, bs.getD 1 0#8, bs.getD 2 0#8, bs.getD 3 0#8, bs.getD 4 0#8,
     bs.getD 5 0#8, bs.getD 6 0#8, bs.getD 7 0#8, bs.getD 8 0#8, bs.getD 9 0#8]

/-- The word a read of EBUF0 returns: bytes 0 to 7 (R65). -/
def ebuf0Word (e : Vector Byte 10) : Word := packWord [e[0], e[1], e[2], e[3], e[4], e[5], e[6], e[7]]

/-- The word a read of EBUF1 returns: bytes 8 and 9, the rest zero (R65). -/
def ebuf1Word (e : Vector Byte 10) : Word := packWord [e[8], e[9]]

/-! ### Success and error -/

/-- A command other than a decode ends with success: ERR = NONE (R26). -/
def succeed (s : State) : State := s.setStatus s.status.succeeded

/-- `raise e`: STATUS records the error, and a decode error also clears CNT; nothing else changes (R193). -/
def raise (e : ErrorKind) (s : State) : State :=
  let s := s.setStatus (s.status.raised e)
  if e.isDecodeError then s.setCnt 0#4 else s

/-- The block's own state after power-on reset; the host's fields are the host's and stay (R220, log entry 5). -/
def powerOnReset (s : State) : State :=
  { State.powerOn s.config with hostQueue := s.hostQueue, hostReads := s.hostReads }

end Sys2Proof.Machine
end

