-- ==== Sys2Proof/Machine/Operands.lean ====
section
/-! DEFINITION. The operands of the commands. Each command takes them from fixed registers (`spec/30_encoding.md` R85). -/

namespace Sys2Proof.Machine

/-- IN[63:0], the operand of ENC, ZZE64 and ZZD64 (R21, R85). -/
def operand64 (s : State) : Word := s.inReg

/-- IN[31:0], the operand of ZZE32 and ZZD32; the high half is ignored (R21, R85). -/
def operand32 (s : State) : BitVec 32 := s.inReg.extractLsb' 0 32

/-- OFFSET as a natural number, where a decode starts (R32, R120). -/
def decodeStart (s : State) : Nat := s.offset.toNat

/-- ILEN as a natural number, where the input buffer ends (R33, R120). -/
def decodeEnd (s : State) : Nat := s.ilen.toNat

end Sys2Proof.Machine
end

