-- ==== Sys2Proof/Machine/Control.lean ====
section
/-! DEFINITION. The control commands NOP, CLRS and SRST (`spec/43_control.md` R170 to R172) and what a word that is
no command does (R173). -/

namespace Sys2Proof.Machine

/-- NOP: no state changes, not even ERR (R170). -/
def execNop (s : State) : Host.Outcome State Fault Refusal := .next s

/-- CLRS: DSTATE = IDLE, ERR = NONE, STICKY = 0 (R171). -/
def execClrs (s : State) : Host.Outcome State Fault Refusal := .next (s.setStatus Status.cleared)

/-- SRST: every register and EBUF to zero, STATUS cleared, IBUF and its written marks kept (R172). -/
def execSrst (s : State) : Host.Outcome State Fault Refusal :=
  .next
    { s with
      inReg := 0#64
      out := 0#64
      cnt := 0#4
      elen := 0#4
      offset := 0#16
      ilen := 0#16
      ebuf := ebufOf []
      status := Status.cleared }

/-- The illegal command: raise IllegalCommand, and no part of any command runs (R173, R196). -/
def illegalCommand (s : State) : Host.Outcome State Fault Refusal := .next (raise .illegalCommand s)

end Sys2Proof.Machine
end

