-- ==== Sys2Proof/Machine/Decoder.lean ====
section
/-! DEFINITION. varint_decoder: the decode function (`spec/41_varint_decoder.md` R121), DEC (R126) and DECA (R127). -/

namespace Sys2Proof.Machine

/-- What a decode answers (R120), or the unwritten byte it would have to read (`spec/20_memory.md` R76). -/
inductive DecodeResult where
  | ok (value : Word) (cnt : Nat)
  | err (e : ErrorKind)
  | unwritten (index : Nat)
deriving DecidableEq, Repr

/-- The continuation flag of a byte, bit 7 (R100). -/
def continues (b : Byte) : Bool := b.getLsbD 7

/-- The payload of a byte, bits 6:0 (R100). -/
def payload (b : Byte) : BitVec 7 := b.extractLsb' 0 7

/-- The tenth-byte test: `b[7] == 1 or b[6:1] != 0` (R121, R123). -/
def tenthByteOverflows (b : Byte) : Bool := continues b || b.extractLsb' 1 6 != 0#6

/-- The loop of R121 at byte index `i` with accumulator `acc`, for at most `left` more bytes. Started with ten bytes
left at index 0 the bound is never met, because at index 9 the body answers on every path; an eleventh group would be
Overflow (R123). -/
def decodeLoop (m : Memory) (p e : Nat) : (left : Nat) → (i : Nat) → (acc : Word) → DecodeResult
  | 0, _, _ => .err .overflow
  | left + 1, i, acc =>
    if e ≤ p + i then .err .truncatedInput
    else
      match Memory.read m (p + i) with
      | none => .unwritten (p + i)
      | some b =>
        if i = 9 ∧ tenthByteOverflows b = true then .err .overflow
        else
          let acc := acc ||| ((payload b).setWidth 64 <<< (7 * i))
          if continues b then decodeLoop m p e left (i + 1) acc else .ok acc (i + 1)

/-- `varint_decode(p, e)` over IBUF `m`: `p` is OFFSET and `e` is ILEN (R120, R121). -/
def varintDecode (m : Memory) (p e : Nat) : DecodeResult := decodeLoop m p e 10 0 0#64

/-- What a decode that succeeds with `v` after `c` bytes records (R126). -/
def recordDecoded (v : Word) (c : Nat) (s : State) : State :=
  ((s.setOut v).setCnt (BitVec.ofNat 4 c)).setStatus s.status.terminated

/-- OFFSET advances by the consumed count (R127, R130). -/
def advanceOffset (c : Nat) (s : State) : State := s.setOffset (s.offset + BitVec.ofNat 16 c)

/-- A decode command: decode at OFFSET, then record the result with `onOk`, or the error (R126, R127). -/
def decodeCommand (onOk : Word → Nat → State → State) (s : State) : Host.Outcome State Fault Refusal :=
  match varintDecode s.ibuf (decodeStart s) (decodeEnd s) with
  | .ok v c => .next (onOk v c s)
  | .err e => .next (raise e s)
  | .unwritten k => .fault (.decodeReadsUnwritten k)

/-- DEC: decode one varint at OFFSET, without advancing (R126). -/
def execDec (s : State) : Host.Outcome State Fault Refusal := decodeCommand recordDecoded s

/-- DECA: decode one varint at OFFSET and advance OFFSET past it (R127). -/
def execDeca (s : State) : Host.Outcome State Fault Refusal :=
  decodeCommand (fun v c s => advanceOffset c (recordDecoded v c s)) s

end Sys2Proof.Machine
end

