-- ==== Sys2Proof/Machine/Encoder.lean ====
section
/-! DEFINITION. varint_encoder: the encode function (`spec/40_varint_encoder.md` R101) and ENC (R103). -/

namespace Sys2Proof.Machine

/-- The low 7 bits of the shift register as a byte, `zext_8(v[6:0])` (R101). -/
def groupOf (v : Word) : Byte := (v.extractLsb' 0 7).setWidth 8

/-- The loop of R101: emit a group, shift right by 7, stop when nothing is left. The first argument bounds the number
of groups. With 10 the bound never cuts a 64-bit value, which 10 shifts by 7 empty (R101). -/
def encodeLoop : Nat → Word → List Byte
  | 0, _ => []
  | k + 1, v =>
    if v >>> 7 ≠ 0#64 then (0x80#8 ||| groupOf v) :: encodeLoop k (v >>> 7) else [groupOf v]

/-- `varint_encode(n)`: the canonical varint of `n`; its length is the `L` of R101. -/
def varintEncode (n : Word) : List Byte := encodeLoop 10 n

/-- ENC: EBUF and ELEN from IN, ERR = NONE (R103). -/
def execEnc (s : State) : Host.Outcome State Fault Refusal :=
  let bs := varintEncode (operand64 s)
  .next (succeed ((s.setEbuf (ebufOf bs)).setElen (BitVec.ofNat 4 bs.length)))

end Sys2Proof.Machine
end

