-- ==== Sys2Proof/Machine/Zigzag.lean ====
section
/-! DEFINITION. zigzag_transform: the four functions (`spec/42_zigzag.md` R150 to R153) and the four commands
(R154 to R157). Arithmetic wraps at the stated width and sets no flag. -/

namespace Sys2Proof.Machine

/-- `zz_enc32(n) = (n << 1) XOR (n >>s 31)` (R150). -/
def zzEnc32 (n : BitVec 32) : BitVec 32 := (n <<< 1) ^^^ n.sshiftRight 31

/-- `zz_enc64(n) = (n << 1) XOR (n >>s 63)` (R151). -/
def zzEnc64 (n : BitVec 64) : BitVec 64 := (n <<< 1) ^^^ n.sshiftRight 63

/-- `zz_dec32(u) = (u >> 1) XOR -(u & 1)` (R152). -/
def zzDec32 (u : BitVec 32) : BitVec 32 := (u >>> 1) ^^^ -(u &&& 1#32)

/-- `zz_dec64(u) = (u >> 1) XOR -(u & 1)` (R153). -/
def zzDec64 (u : BitVec 64) : BitVec 64 := (u >>> 1) ^^^ -(u &&& 1#64)

/-- ZZE32: OUT is the zero-extended encoding of IN[31:0] (R154). -/
def execZze32 (s : State) : Host.Outcome State Fault Refusal :=
  .next (succeed (s.setOut ((zzEnc32 (operand32 s)).setWidth 64)))

/-- ZZE64: OUT is the encoding of IN (R155). -/
def execZze64 (s : State) : Host.Outcome State Fault Refusal :=
  .next (succeed (s.setOut (zzEnc64 (operand64 s))))

/-- ZZD32: OUT is the sign-extended decoding of IN[31:0] (R156). -/
def execZzd32 (s : State) : Host.Outcome State Fault Refusal :=
  .next (succeed (s.setOut ((zzDec32 (operand32 s)).signExtend 64)))

/-- ZZD64: OUT is the decoding of IN (R157). -/
def execZzd64 (s : State) : Host.Outcome State Fault Refusal :=
  .next (succeed (s.setOut (zzDec64 (operand64 s))))

end Sys2Proof.Machine
end

