-- ==== Sys2Proof/Machine/Dispatch.lean ====
section
/-! DEFINITION. The meaning of each command, one arm per constructor (`spec/30_encoding.md` R87). -/

namespace Sys2Proof.Machine

def exec (i : Instr) (s : State) : Host.Outcome State Fault Refusal :=
  match i with
  | .nop => Sys2Proof.Machine.execNop s
  | .enc => Sys2Proof.Machine.execEnc s
  | .dec => Sys2Proof.Machine.execDec s
  | .deca => Sys2Proof.Machine.execDeca s
  | .zze32 => Sys2Proof.Machine.execZze32 s
  | .zze64 => Sys2Proof.Machine.execZze64 s
  | .zzd32 => Sys2Proof.Machine.execZzd32 s
  | .zzd64 => Sys2Proof.Machine.execZzd64 s
  | .clrs => Sys2Proof.Machine.execClrs s
  | .srst => Sys2Proof.Machine.execSrst s

end Sys2Proof.Machine
end

