-- ==== Sys2Proof/Machine/Bus.lean ====
section
/-! DEFINITION. The host bus: the word address map (`spec/20_memory.md` R63, R64), what a read returns and what a
write does (R61, R62), a command write (`spec/30_encoding.md` R87), and one event of the host
(`spec/00_scope.md` R11, `spec/70_reset_and_hazards.md` R220). -/

namespace Sys2Proof.Machine

/-- What a word address names (R63). -/
inductive BusTarget where
  | id
  | cmd
  | status
  | inReg
  | out
  | cnt
  | elen
  | offset
  | ilen
  | ebuf0
  | ebuf1
  /-- word `j` of IBUF -/
  | ibufWord (j : Nat)
  /-- reads as 0, ignores writes (R64) -/
  | unmapped
deriving DecidableEq, Repr

/-- The first word address of IBUF (R63). -/
def ibufBase : Nat := 0x1000

/-- The word address of IBUF word `j` (R63). DESIGN CHOICE (log entry 13), unsafe: the spec gives `0x1000 + j` only
within the 13-bit address space, so for `j` below 4096; for a larger `j` this keeps the sum modulo 2^13, which is then
an address below 0x1000 or of another IBUF word. -/
def ibufAddrOf (j : Nat) : BusAddr := BitVec.ofNat 13 (ibufBase + j)

/-- The registers and EBUF words, and the unmapped addresses between them and above (R63). -/
def registerTarget (a : BusAddr) : BusTarget :=
  if a = 0x000#13 then .id
  else if a = 0x001#13 then .cmd
  else if a = 0x002#13 then .status
  else if a = 0x003#13 then .inReg
  else if a = 0x004#13 then .out
  else if a = 0x005#13 then .cnt
  else if a = 0x006#13 then .elen
  else if a = 0x007#13 then .offset
  else if a = 0x008#13 then .ilen
  else if a = 0x010#13 then .ebuf0
  else if a = 0x011#13 then .ebuf1
  else .unmapped

/-- The word address map (R63): IBUF words from 0x1000 up, registers below. -/
def busTarget (c : Config) (a : BusAddr) : BusTarget :=
  if ibufBase ≤ a.toNat ∧ a.toNat < ibufBase + c.ibufWords then .ibufWord (a.toNat - ibufBase)
  else registerTarget a

/-- `BusRead(a)`: the word the map gives, or the fault of R76 for an IBUF word that holds an unwritten byte. A read
changes no state (R61, R69). -/
def busRead (s : State) (a : BusAddr) : Except Fault Word :=
  match busTarget s.config a with
  | .id => .ok (idWord s.config)
  | .cmd => .ok 0#64
  | .status => .ok s.status.word
  | .inReg => .ok s.inReg
  | .out => .ok s.out
  | .cnt => .ok (s.cnt.setWidth 64)
  | .elen => .ok (s.elen.setWidth 64)
  | .offset => .ok (s.offset.setWidth 64)
  | .ilen => .ok (s.ilen.setWidth 64)
  | .ebuf0 => .ok (ebuf0Word s.ebuf)
  | .ebuf1 => .ok (ebuf1Word s.ebuf)
  | .ibufWord j =>
    match Memory.readWord s.ibuf j with
    | some d => .ok d
    | none => .error (.busReadsUnwritten j)
  | .unmapped => .ok 0#64

/-- A write of `d` to CMD: run the command `d` encodes, or the illegal command (R87, R31). -/
def commandWrite (d : Word) (s : State) : Host.Outcome State Fault Refusal :=
  match decode d with
  | .ok i => exec i s
  | .error _ => illegalCommand s

/-- `BusWrite(a, d)`: store, run a command, or be ignored (R62, R63). -/
def busWrite (a : BusAddr) (d : Word) (s : State) : Host.Outcome State Fault Refusal :=
  match busTarget s.config a with
  | .cmd => commandWrite d s
  | .inReg => .next (s.setIn d)
  | .offset => .next (s.setOffset (clampToIbuf s.config d))
  | .ilen => .next (s.setIlen (clampToIbuf s.config d))
  | .ibufWord j => .next (s.setIbuf (Memory.writeWord s.ibuf j d))
  | .id | .status | .out | .cnt | .elen | .ebuf0 | .ebuf1 | .unmapped => .next s

/-- One bus access. A read hands its word to the host (R224). -/
def performAccess (b : BusAccess) (s : State) : Host.Outcome State Fault Refusal :=
  match b with
  | .write a d => busWrite a d s
  | .read a =>
    match busRead s a with
    | .ok v => .next (s.addRead v)
    | .error f => .fault f

/-- One event of the host: a bus access, or power-on reset between two accesses (R220). -/
def performEvent (e : HostEvent) (s : State) : Host.Outcome State Fault Refusal :=
  match e with
  | .access b => performAccess b s
  | .powerOnReset => .next (powerOnReset s)

/-- One step: the host's oldest pending event. With none pending the block stays as it is: it runs nothing until the
host writes CMD (R222, log entry 4). -/
def hostStep (s : State) : Host.Outcome State Fault Refusal :=
  match s.hostQueue with
  | [] => .next s
  | e :: rest => performEvent e (s.setQueue rest)

/-- The word address of CMD (R63). -/
def cmdAddr : BusAddr := 0x001#13

/-- `s` with a host whose next access is the write of the command word of these bits to CMD (log entry 7). -/
def placeCommand (s : State) (nbits w : Nat) : State :=
  s.setQueue (.access (.write cmdAddr (tableWord nbits w)) :: s.hostQueue)

end Sys2Proof.Machine
end

