-- ==== Sys2Proof/Machine/Step.lean ====
section
/-! DEFINITION. One step of the machine: one bus access of the host, a whole command included
(`spec/00_scope.md` R11, `spec/70_reset_and_hazards.md` R230). -/

namespace Sys2Proof.Machine

/-- One step (R11). -/
def step (s : State) : Host.Outcome State Fault Refusal := hostStep s

/-- `s` with the instruction of these bits where `step` takes its next one: the head of the host's queue, as a write
to CMD (R31, R73). Nothing else changes. -/
def State.withFetchWord (s : State) (nbits w : Nat) : State := placeCommand s nbits w

end Sys2Proof.Machine
end

