-- ==== Sys2Proof/Machine/HostProgram.lean ====
section
/-! DEFINITION. What the host runs: the assembly lines and pseudo-instructions (`spec/30_encoding.md` R88, R89), a
host program and its observation (`spec/70_reset_and_hazards.md` R224), the stream encoder
(`spec/40_varint_encoder.md` R104), the stream decoder DECODE_ALL and decoding in pieces
(`spec/41_varint_decoder.md` R131 to R134), and the ZigZag chains (`spec/42_zigzag.md` R161). None of these is a
command of the block: each is a sequence of bus accesses. -/

namespace Sys2Proof.Machine

/-! ### Assembly lines -/

/-- The register names of R88. -/
inductive RegName where
  | id
  | cmd
  | status
  | inReg
  | out
  | cnt
  | elen
  | offset
  | ilen
  | ebuf0
  | ebuf1
deriving DecidableEq, Repr

/-- `addr(REG)` (R63, R88). -/
def RegName.addr : RegName → BusAddr
  | .id => 0x000#13
  | .cmd => 0x001#13
  | .status => 0x002#13
  | .inReg => 0x003#13
  | .out => 0x004#13
  | .cnt => 0x005#13
  | .elen => 0x006#13
  | .offset => 0x007#13
  | .ilen => 0x008#13
  | .ebuf0 => 0x010#13
  | .ebuf1 => 0x011#13

/-- One line of a host program (R88). A value may be a negative decimal literal, so it is an integer here. The type
holds more than R88 admits: a value literal of more than 64 bits, and `IBUF+j` with `j` of 4096 or more. What `access`
makes of those is the model's choice (DESIGN CHOICE, log entry 13). -/
inductive AsmLine where
  | rd (r : RegName)
  | wr (r : RegName) (value : Int)
  | wrIbuf (j : Nat) (value : Int)
  | rdIbuf (j : Nat)
  | cmd (i : Instr)
deriving DecidableEq, Repr

/-- A line's encoding: the bus access it stands for (R88). `-k` stands for `2^64 - k`. DESIGN CHOICE (log entry 13),
unsafe: R88 admits no literal wider than 64 bits and no word address wider than 13 bits; for such a line, which is no
line of the spec, the value is kept modulo 2^64 and the address modulo 2^13. -/
def AsmLine.access : AsmLine → BusAccess
  | .rd r => .read r.addr
  | .wr r value => .write r.addr (BitVec.ofInt 64 value)
  | .wrIbuf j value => .write (ibufAddrOf j) (BitVec.ofInt 64 value)
  | .rdIbuf j => .read (ibufAddrOf j)
  | .cmd i => .write RegName.cmd.addr (encode i)

/-- The words `load` writes: byte `8j+i` at bits `8i+7:8i` of word `j`, missing bytes zero (R89, R65). -/
def packWords : List Byte → List Word
  | b0 :: b1 :: b2 :: b3 :: b4 :: b5 :: b6 :: b7 :: rest =>
    packWord [b0, b1, b2, b3, b4, b5, b6, b7] :: packWords rest
  | [] => []
  | bs => [packWord bs]

/-- Writes of consecutive IBUF words from word `j` up (R89). The addresses are those of `ibufAddrOf`, with its choice
above word 4095 (log entry 13). -/
def writeIbufWords (j : Nat) : List Word → List AsmLine
  | [] => []
  | w :: ws => .wrIbuf j w.toNat :: writeIbufWords (j + 1) ws

/-- The pseudo-instructions (R89). -/
inductive Pseudo where
  | encode (v : Int)
  | zze32 (v : Int)
  | zze64 (v : Int)
  | zzd32 (v : Int)
  | zzd64 (v : Int)
  | load (bs : List Byte)
  | decode
  | peek
deriving DecidableEq, Repr

/-- The lines a pseudo-instruction stands for (R89). DESIGN CHOICE (log entry 13), unsafe: R89 requires of `load` that
its bytes number at most IBUF_SIZE and gives a longer one no meaning; here any list expands by the same rule, with no
check, so a longer `load` writes words past the end of IBUF, which the block ignores, past 32768 bytes wraps onto the
registers, and has its ILEN write clamped. A value `v` is a literal of at most 64 bits, as in `AsmLine.access`. -/
def Pseudo.lines : Pseudo → List AsmLine
  | .encode v => [.wr .inReg v, .cmd .enc]
  | .zze32 v => [.wr .inReg v, .cmd .zze32]
  | .zze64 v => [.wr .inReg v, .cmd .zze64]
  | .zzd32 v => [.wr .inReg v, .cmd .zzd32]
  | .zzd64 v => [.wr .inReg v, .cmd .zzd64]
  | .load bs => writeIbufWords 0 (packWords bs) ++ [.wr .ilen bs.length, .wr .offset 0]
  | .decode => [.cmd .deca]
  | .peek => [.cmd .dec]

/-! ### Running accesses -/

/-- Go on with `f` from an outcome's next state; a stop stays a stop. -/
def andThen {σ τ : Type} (o : Host.Outcome σ Fault Refusal) (f : σ → Host.Outcome τ Fault Refusal) :
    Host.Outcome τ Fault Refusal :=
  match o with
  | .next s => f s
  | .fault r => .fault r
  | .refused r => .refused r

/-- Perform accesses in order, each seeing the effect of those before it (`spec/20_memory.md` R70). -/
def runAccesses : List BusAccess → State → Host.Outcome State Fault Refusal
  | [], s => .next s
  | b :: bs, s => andThen (performAccess b s) (runAccesses bs)

/-- Run assembly lines. -/
def runLines (ls : List AsmLine) (s : State) : Host.Outcome State Fault Refusal :=
  runAccesses (ls.map AsmLine.access) s

/-- The observation of a host program: the words its reads returned and the state after its last access. A faulted
run has none (R224). -/
def observe (p : List BusAccess) (s : State) : Option (List Word × State) :=
  match runAccesses p { s with hostReads := [] } with
  | .next t => some (t.hostReads, t)
  | .fault _ => none
  | .refused _ => none

/-- Read a register and hand the word on: `rd REG` (R88). -/
def readReg (r : RegName) (s : State) : Host.Outcome (Word × State) Fault Refusal :=
  match busRead s r.addr with
  | .ok v => .next (v, s.addRead v)
  | .error f => .fault f

/-! ### Stream encode -/

/-- The first `n` bytes of two EBUF words (R104). -/
def encodedBytes (n : Nat) (w0 w1 : Word) : List Byte := (unpackWord w0 ++ unpackWord w1).take n

/-- Encode one value and read the bytes back: `encode v`, `rd ELEN`, `rd EBUF0`, `rd EBUF1` (R104). -/
def streamEncodeOne (v : Word) (s : State) : Host.Outcome (List Byte × State) Fault Refusal :=
  andThen (runLines (Pseudo.lines (.encode v.toNat)) s) fun s =>
  andThen (readReg .elen s) fun r =>
  andThen (readReg .ebuf0 r.2) fun r0 =>
  andThen (readReg .ebuf1 r0.2) fun r1 =>
  .next (encodedBytes r.1.toNat r0.1 r1.1, r1.2)

/-- The stream encoder: encode each value in order and append its bytes (R104). -/
def streamEncode : List Word → State → Host.Outcome (List Byte × State) Fault Refusal
  | [], s => .next ([], s)
  | v :: vs, s =>
    andThen (streamEncodeOne v s) fun r =>
    andThen (streamEncode vs r.2) fun rs =>
    .next (r.1 ++ rs.1, rs.2)

/-! ### Stream decode -/

/-- What DECODE_ALL returns (R131). `notFinished` is no answer of the spec: it is the end of the loop's bound, which
the loop never meets (R131: at most m times). -/
inductive StreamResult where
  | ok (values : List Word)
  | err (kind : BitVec 4)
  | notFinished
deriving DecidableEq, Repr

/-- The loop of DECODE_ALL over a loaded buffer of `m` bytes (R131). -/
def decodeAllLoop (m : Nat) : Nat → List Word → State → Host.Outcome (StreamResult × State) Fault Refusal
  | 0, _, s => .next (.notFinished, s)
  | bound + 1, out, s =>
    andThen (readReg .offset s) fun o =>
    if o.1.toNat = m then .next (.ok out, o.2)
    else
      andThen (runLines [.cmd .deca] o.2) fun s =>
      andThen (readReg .status s) fun st =>
      if st.1.extractLsb' 4 4 ≠ errNone then .next (.err (st.1.extractLsb' 4 4), st.2)
      else
        andThen (readReg .out st.2) fun v =>
        decodeAllLoop m bound (out ++ [v.1]) v.2

/-- DECODE_ALL(B), for B of at most IBUF_SIZE bytes (R131). The `load` it starts with needs that bound (R89); a longer
B is outside the procedure, and what this does with it is the model's choice (DESIGN CHOICE, log entry 13). -/
def decodeAll (bs : List Byte) (s : State) : Host.Outcome (StreamResult × State) Fault Refusal :=
  andThen (runLines (Pseudo.lines (.load bs)) s) (decodeAllLoop bs.length (bs.length + 1) [])

/-- One piece of a long stream: the values decoded from it, how the loop ended, and where OFFSET was left (R134). -/
structure PieceResult where
  values : List Word
  kind : BitVec 4
  consumed : Nat
deriving DecidableEq, Repr

/-- The loop of R131 over one loaded piece, keeping the values decoded before an error (R132, R134). -/
def decodePieceLoop (m : Nat) : Nat → List Word → State → Host.Outcome (PieceResult × State) Fault Refusal
  | 0, out, s => .next (⟨out, errNone, m⟩, s)
  | bound + 1, out, s =>
    andThen (readReg .offset s) fun o =>
    if o.1.toNat = m then .next (⟨out, errNone, m⟩, o.2)
    else
      andThen (runLines [.cmd .deca] o.2) fun s =>
      andThen (readReg .status s) fun st =>
      if st.1.extractLsb' 4 4 ≠ errNone then .next (⟨out, st.1.extractLsb' 4 4, o.1.toNat⟩, st.2)
      else
        andThen (readReg .out st.2) fun v =>
        decodePieceLoop m bound (out ++ [v.1]) v.2

/-- Decode a stream of any length in pieces. A TruncatedInput at the end of a piece that is not the end of the stream
is no error: the next piece starts at the first unconsumed byte (R134). DESIGN CHOICE (log entry 9), safe: R134 says
only "a piece" and leaves its length to the host; here every piece is as long as IBUF holds, `min(IBUF_SIZE, bytes
left)`. -/
def decodePieces : Nat → List Word → List Byte → State → Host.Outcome (StreamResult × State) Fault Refusal
  | 0, _, _, s => .next (.notFinished, s)
  | bound + 1, out, bs, s =>
    let piece := bs.take s.config.ibufSize
    let rest := bs.drop s.config.ibufSize
    andThen (runLines (Pseudo.lines (.load piece)) s) fun s =>
    andThen (decodePieceLoop piece.length (piece.length + 1) [] s) fun r =>
    if r.1.kind = errNone ∧ rest = [] then .next (.ok (out ++ r.1.values), r.2)
    else if r.1.kind = errNone ∨ (r.1.kind = ErrorKind.truncatedInput.code ∧ rest ≠ []) then
      decodePieces bound (out ++ r.1.values) (bs.drop r.1.consumed) r.2
    else .next (.err r.1.kind, r.2)

/-- The stream decoder for a stream of any length (R134), in pieces of the length `decodePieces` chooses (DESIGN CHOICE,
log entry 9). -/
def decodeLong (bs : List Byte) (s : State) : Host.Outcome (StreamResult × State) Fault Refusal :=
  decodePieces (bs.length + 1) [] bs s

/-! ### Signed values -/

/-- Encode a signed value: `zze64 v`, `rd OUT`, `encode <that value>`, then read the bytes (R161, R104). `v` is a
literal of at most 64 bits; a wider integer is kept modulo 2^64 (DESIGN CHOICE, log entry 13). -/
def encodeSigned (v : Int) (s : State) : Host.Outcome (List Byte × State) Fault Refusal :=
  andThen (runLines (Pseudo.lines (.zze64 v)) s) fun s =>
  andThen (readReg .out s) fun r => streamEncodeOne r.1 r.2

/-- Decode a signed value at OFFSET: `decode`, `rd OUT`, `zzd64 <that value>`, `rd OUT` (R161). -/
def decodeSigned (s : State) : Host.Outcome (Word × State) Fault Refusal :=
  andThen (runLines (Pseudo.lines .decode) s) fun s =>
  andThen (readReg .out s) fun r =>
  andThen (runLines (Pseudo.lines (.zzd64 r.1.toNat)) r.2) (readReg .out)

end Sys2Proof.Machine
end

