-- ==== Sys2Proof/WellFormed.lean ====
section
/-! DEFINITION. What is checked before a thing has a meaning: the two checks of a command word
(`spec/30_encoding.md` R82, R83). A command holds no operand, so every `Instr` is well formed. The check of a build
size (`spec/00_scope.md` R6) is `legalIbufSize` in Config.lean. -/

namespace Sys2Proof

/-- RSV, bits 63:8 of a command word, is zero (R80, R82). -/
def reservedBitsClear (d : Word) : Bool := d.extractLsb' 8 56 == 0#56

/-- OPCODE, bits 7:0 of a command word, is one of the ten that R81 assigns (R83). -/
def opcodeAssigned (d : Word) : Bool :=
  (d.extractLsb' 0 8).toNat ∈ [0x00, 0x01, 0x02, 0x03, 0x04, 0x05, 0x06, 0x07, 0x08, 0x0F]

/-- A word is a legal command word (R87). -/
def WellFormedWord (d : Word) : Bool := reservedBitsClear d && opcodeAssigned d

/-- Every command is well formed: it has no field that could be out of range (R80, R85). -/
def Instr.wellFormed : Instr → Bool
  | .nop | .enc | .dec | .deca | .zze32 | .zze64 | .zzd32 | .zzd64 | .clrs | .srst => true

end Sys2Proof
end

