-- ==== Sys2Proof/Safety.lean ====
section
/-! DEFINITION. The terms claims use: what a varint is and what it stands for (`spec/40_varint_encoder.md` R100),
what lies in a byte memory, the invariant of the block, which states a command can run from, and a run without a
fault (`spec/20_memory.md` R76). -/

namespace Sys2Proof.Machine

/-! ### Varints as byte strings -/

/-- A varint: 1 to 10 bytes, every byte but the last with its continuation flag set, the last with it clear (R100). -/
abbrev IsVarint (bs : List Byte) : Prop :=
  1 ≤ bs.length ∧ bs.length ≤ 10 ∧
    (∀ i < bs.length - 1, continues (bs.getD i 0#8) = true) ∧
    continues (bs.getD (bs.length - 1) 0#8) = false

/-- The value of a byte string read as a varint: the sum of `b_i[6:0] * 2^(7i)` (R100). -/
def varintValue (bs : List Byte) : Nat :=
  ((List.range bs.length).map fun i => (payload (bs.getD i 0#8)).toNat * 2 ^ (7 * i)).sum

/-- The bytes `bs` lie in `m` from index `p` up, all of them written. -/
abbrev BytesAt (m : Memory) (p : Nat) (bs : List Byte) : Prop :=
  ∀ i < bs.length, Memory.read m (p + i) = some (bs.getD i 0#8)

/-- The `n` bytes from index `p` up are written and all have their continuation flag set. -/
abbrev ContinuationRun (m : Memory) (p n : Nat) : Prop :=
  ∀ i < n, (Memory.read m (p + i)).any continues = true

/-- The condition of TruncatedInput: the buffer ends before a terminator among the first ten bytes (R122). -/
abbrev TruncatedAt (m : Memory) (p e : Nat) : Prop :=
  ∃ i < 10, e ≤ p + i ∧ ContinuationRun m p i

/-- The condition of Overflow: nine continuation bytes, and a tenth byte in the buffer with bit 7 set or with one of
bits 6:1 set (R123). -/
abbrev OverflowAt (m : Memory) (p e : Nat) : Prop :=
  ContinuationRun m p 9 ∧ p + 9 < e ∧
    (Memory.read m (p + 9)).any (fun b => b.getLsbD 7 || b.extractLsb' 1 6 != 0#6) = true

/-- The two memories hold the same in the `n` bytes from index `p` up. -/
abbrev AgreeOn (m m' : Memory) (p n : Nat) : Prop :=
  ∀ i < n, Memory.read m' (p + i) = Memory.read m (p + i)

/-- Every byte a decode from `p` could need is written: the bytes below the buffer's end, at most ten (R125). -/
abbrev DecodeReadable (m : Memory) (p e : Nat) : Prop :=
  ∀ i < 10, p + i < e → (Memory.read m (p + i)).isSome = true

/-! ### The invariant -/

/-- OFFSET and ILEN never exceed IBUF_SIZE (R41). -/
abbrev OffsetsBounded (s : State) : Prop :=
  s.offset.toNat ≤ s.config.ibufSize ∧ s.ilen.toNat ≤ s.config.ibufSize

/-- CNT and ELEN never hold 11 to 15 (R23, R24). -/
abbrev CountsLegal (s : State) : Prop := s.cnt.toNat ≤ 10 ∧ s.elen.toNat ≤ 10

/-- DSTATE is never 3 and ERR never 4 to 15 (R29), a recorded error keeps STICKY set (R28), and DSTATE agrees with
CNT: a terminated decode consumed at least one byte, a failed one counts none (R23, R193). -/
abbrev StatusLegal (s : State) : Prop :=
  s.status.dstate ≠ 3#2 ∧ s.status.err.toNat ≤ 3 ∧
    (s.status.err ≠ 0#4 → s.status.sticky = true) ∧
    (s.status.dstate = 2#2 → s.status.sticky = true ∧ s.cnt = 0#4) ∧
    (s.status.dstate = 1#2 → 1 ≤ s.cnt.toNat)

/-- EBUF holds a varint of ELEN bytes when ELEN is not 0, and zeros from ELEN up (R34, R103). -/
abbrev EbufLegal (s : State) : Prop :=
  (∀ k : Fin 10, s.elen.toNat ≤ k.val → s.ebuf[k] = 0#8) ∧
    (1 ≤ s.elen.toNat → IsVarint (s.ebuf.toList.take s.elen.toNat))

/-- IBUF is in its canonical form, lies below IBUF_SIZE, and is written by whole words (R35, R68, R76). -/
abbrev IbufLegal (s : State) : Prop :=
  Memory.wf s.ibuf = true ∧
    ∀ c ∈ s.ibuf, c.1 < s.config.ibufSize ∧ ∀ i < 8, (Memory.read s.ibuf (8 * (c.1 / 8) + i)).isSome = true

/-- The invariant of the block. -/
abbrev Inv (s : State) : Prop :=
  OffsetsBounded s ∧ CountsLegal s ∧ StatusLegal s ∧ EbufLegal s ∧ IbufLegal s

/-! ### What is left unchanged -/

/-- The host's own fields and the build parameters are the same. -/
abbrev SameHost (s t : State) : Prop :=
  t.config = s.config ∧ t.hostQueue = s.hostQueue ∧ t.hostReads = s.hostReads

/-- Every byte of IBUF reads as before, and is as written as before. -/
def SameIbuf (s t : State) : Prop := ∀ k, Memory.read t.ibuf k = Memory.read s.ibuf k

/-- Every register and buffer of the block is the same. -/
def SameBlock (s t : State) : Prop :=
  t.inReg = s.inReg ∧ t.out = s.out ∧ t.cnt = s.cnt ∧ t.elen = s.elen ∧ t.offset = s.offset ∧ t.ilen = s.ilen ∧
    t.status = s.status ∧ t.ebuf = s.ebuf ∧ SameIbuf s t

/-! ### Runs -/

/-- A command word that names a decode (R126, R127). -/
abbrev IsDecodeWord (d : Word) : Prop := d = 0x0000000000000002#64 ∨ d = 0x0000000000000003#64

/-- An event that can read an IBUF byte: a read from the IBUF window, or a CMD write of a decode (R61, R125). -/
def MayReadIbuf (e : HostEvent) : Prop :=
  (∃ a : BusAddr, e = .access (.read a) ∧ 0x1000 ≤ a.toNat) ∨
    ∃ d : Word, e = .access (.write 0x001#13 d) ∧ IsDecodeWord d

/-- A run of `n` steps that meets no fault and no refusal (R76, R224). -/
def SafeRun (n : Nat) (s : State) : Prop := ∃ t, Host.Core.run Sys2Proof.core n s = .next t

end Sys2Proof.Machine
end

