-- ==== Sys2Proof/Certificates/Slice0/Obligations.lean ====
section
/-! DEFINITION. The statements about varint_codec, one per group of numbered rules of `spec/`. Each docstring names
the rules it formalises. -/

open Sys2Proof Sys2Proof.Machine

/-! ### One step -/

/-- R11, R31, R87: a step whose access writes a command word to CMD runs the decoded command on the state it finds,
the access itself having left the host's queue. With the command placed by `withFetchWord` the very next step runs it. -/
def Obligations.StepRunsTheDecodedCommand : Prop :=
  (∀ (s : State) (d : Word) (i : Instr) (rest : List HostEvent),
    s.hostQueue = .access (.write 0x001#13 d) :: rest → decode d = .ok i →
      step s = exec i { s with hostQueue := rest }) ∧
  (∀ (s : State) (i : Instr), step (s.withFetchWord 64 (encode i).toNat) = exec i s)

/-- R11, R61, R62, R220: a step performs the host's oldest event and takes it off the queue. A read appends the word
it returns to what the host has read. With no event pending the state stays (the model's choice, log entry 4). -/
def Obligations.StepPerformsTheOldestEvent : Prop :=
  (∀ (s : State) (a : BusAddr) (rest : List HostEvent) (v : Word),
    s.hostQueue = .access (.read a) :: rest → busRead s a = .ok v →
      step s = .next { s with hostQueue := rest, hostReads := s.hostReads ++ [v] }) ∧
  (∀ (s : State) (a : BusAddr) (rest : List HostEvent) (f : Fault),
    s.hostQueue = .access (.read a) :: rest → busRead s a = .error f → step s = .fault f) ∧
  (∀ (s : State) (a : BusAddr) (d : Word) (rest : List HostEvent),
    s.hostQueue = .access (.write a d) :: rest → step s = busWrite a d { s with hostQueue := rest }) ∧
  (∀ s : State, s.hostQueue = [] → step s = .next s)

/-! ### The command decoder -/

/-- R90: the command word of every mnemonic. -/
def Obligations.DecodesTheTenCommandWords : Prop :=
  decode 0x0000000000000000#64 = .ok .nop ∧ encode .nop = 0x0000000000000000#64 ∧
  decode 0x0000000000000001#64 = .ok .enc ∧ encode .enc = 0x0000000000000001#64 ∧
  decode 0x0000000000000002#64 = .ok .dec ∧ encode .dec = 0x0000000000000002#64 ∧
  decode 0x0000000000000003#64 = .ok .deca ∧ encode .deca = 0x0000000000000003#64 ∧
  decode 0x0000000000000004#64 = .ok .zze32 ∧ encode .zze32 = 0x0000000000000004#64 ∧
  decode 0x0000000000000005#64 = .ok .zze64 ∧ encode .zze64 = 0x0000000000000005#64 ∧
  decode 0x0000000000000006#64 = .ok .zzd32 ∧ encode .zzd32 = 0x0000000000000006#64 ∧
  decode 0x0000000000000007#64 = .ok .zzd64 ∧ encode .zzd64 = 0x0000000000000007#64 ∧
  decode 0x0000000000000008#64 = .ok .clrs ∧ encode .clrs = 0x0000000000000008#64 ∧
  decode 0x000000000000000F#64 = .ok .srst ∧ encode .srst = 0x000000000000000F#64

/-- R87: the decoder is total and exact. A word decodes to a command exactly when it is that command's word; every
other word runs the illegal command; and the mask and match form of the table selects the same command. -/
def Obligations.EveryWordSelectsExactlyOneOutcome : Prop :=
  [Instr.nop, .enc, .dec, .deca, .zze32, .zze64, .zzd32, .zzd64, .clrs, .srst].map (fun i => (encode i).toNat) =
    [0x00, 0x01, 0x02, 0x03, 0x04, 0x05, 0x06, 0x07, 0x08, 0x0F] ∧
  (∀ (d : Word) (i : Instr), decode d = .ok i ↔ d = encode i) ∧
  (∀ d : Word, d.extractLsb' 8 56 ≠ 0#56 → decode d = .error .reservedBitsSet) ∧
  (∀ (d : Word) (s : State) (i : Instr), d = encode i → busWrite 0x001#13 d s = exec i s) ∧
  (∀ (d : Word) (s : State), (∀ i, d ≠ encode i) → busWrite 0x001#13 d s = illegalCommand s) ∧
  (∀ d : Word, decodeByTable d = (decode d).toOption) ∧
  (∀ r ∈ opcodeTable, r.mask = 0xFFFFFFFFFFFFFFFF#64 ∧ r.pattern = (r.pattern.extractLsb' 0 8).setWidth 64)

/-- R82, R83, R173: a word with a reserved bit set, and a word with a reserved OPCODE (246 values), is illegal. It is
exactly a word that is none of the ten. It sets ERR = 3 and STICKY = 1 and changes nothing else. -/
def Obligations.ReservedWordsRaiseIllegalCommand : Prop :=
  (∀ (d : Word) (s : State),
    (d.extractLsb' 8 56 ≠ 0#56 ∨
      (0x09 ≤ (d.extractLsb' 0 8).toNat ∧ (d.extractLsb' 0 8).toNat ≤ 0x0E) ∨ 0x10 ≤ (d.extractLsb' 0 8).toNat) →
    busWrite 0x001#13 d s = .next { s with status := { s.status with err := 3#4, sticky := true } }) ∧
  (∀ d : Word,
    (∀ i, d ≠ encode i) ↔
      (d.extractLsb' 8 56 ≠ 0#56 ∨
        (0x09 ≤ (d.extractLsb' 0 8).toNat ∧ (d.extractLsb' 0 8).toNat ≤ 0x0E) ∨ 0x10 ≤ (d.extractLsb' 0 8).toNat)) ∧
  ((List.range 256).filter fun op => decide ((0x09 ≤ op ∧ op ≤ 0x0E) ∨ 0x10 ≤ op)).length = 246

/-! ### Registers -/

/-- R21: IN stores and returns all 64 bits; no command writes it but SRST, which writes 0; ZZE32 and ZZD32 read only
its low half; ENC, ZZE64 and ZZD64 read all of it, so that their results tell any two operands apart. -/
def Obligations.InIsReadWholeOrByItsLowHalf : Prop :=
  (∀ (s : State) (v : Word), busWrite 0x003#13 v s = .next { s with inReg := v }) ∧
  (∀ s : State, busRead s 0x003#13 = .ok s.inReg) ∧
  (∀ (i : Instr) (s t : State), exec i s = .next t → t.inReg = if i = .srst then 0#64 else s.inReg) ∧
  (∀ (d : Word) (s t : State), busWrite 0x001#13 d s = .next t → d ≠ encode .srst → t.inReg = s.inReg) ∧
  (∀ (s : State) (v : Word), v.extractLsb' 0 32 = s.inReg.extractLsb' 0 32 →
    ∀ i, (i = .zze32 ∨ i = .zzd32) → ∃ t t', exec i s = .next t ∧ exec i { s with inReg := v } = .next t' ∧
      t'.out = t.out) ∧
  (∀ (s : State) (v : Word), v ≠ s.inReg →
    (∀ i, (i = .zze64 ∨ i = .zzd64) → ∃ t t', exec i s = .next t ∧ exec i { s with inReg := v } = .next t' ∧
      t'.out ≠ t.out) ∧
    (∃ t t', exec .enc s = .next t ∧ exec .enc { s with inReg := v } = .next t' ∧ t'.ebuf ≠ t.ebuf))

/-- R23: a decode that succeeds writes CNT with its consumed count, 1 to 10, a decode that fails and SRST write 0, no
other command and no bus write changes it, it reads zero-extended, and 11 to 15 are never held. -/
def Obligations.CntCountsTheConsumedBytes : Prop :=
  (∀ (i : Instr) (s t : State), (i = .dec ∨ i = .deca) → exec i s = .next t → t.status.err = 0#4 →
    1 ≤ t.cnt.toNat ∧ t.cnt.toNat ≤ 10 ∧
      ∃ bs, IsVarint bs ∧ bs.length = t.cnt.toNat ∧ BytesAt s.ibuf s.offset.toNat bs) ∧
  (∀ (i : Instr) (s t : State), (i = .dec ∨ i = .deca) → exec i s = .next t → t.status.err ≠ 0#4 → t.cnt = 0#4) ∧
  (∀ (s t : State), exec .srst s = .next t → t.cnt = 0#4) ∧
  (∀ (d : Word) (s t : State), busWrite 0x001#13 d s = .next t →
    d ≠ encode .dec → d ≠ encode .deca → d ≠ encode .srst → t.cnt = s.cnt) ∧
  (∀ (d : Word) (s : State), busWrite 0x005#13 d s = .next s) ∧
  (∀ s : State, busRead s 0x005#13 = .ok (s.cnt.setWidth 64)) ∧
  (∀ c : Config, (State.powerOn c).cnt.toNat ≤ 10) ∧
  (∀ (s t : State), s.cnt.toNat ≤ 10 → step s = .next t → t.cnt.toNat ≤ 10)

/-- R24: ENC writes ELEN with the number of bytes it produced, 1 to 10, SRST writes 0, no other command and no bus
write changes it, it reads zero-extended, only a reset makes it 0 again, and 11 to 15 are never held. -/
def Obligations.ElenIsTheLengthOfTheLastEncoding : Prop :=
  (∀ s : State, ∃ t, exec .enc s = .next t ∧ t.elen.toNat = (varintEncode s.inReg).length ∧
    1 ≤ t.elen.toNat ∧ t.elen.toNat ≤ 10) ∧
  (∀ (s t : State), exec .srst s = .next t → t.elen = 0#4) ∧
  (∀ (d : Word) (s t : State), busWrite 0x001#13 d s = .next t → d ≠ encode .enc → d ≠ encode .srst →
    t.elen = s.elen) ∧
  (∀ (d : Word) (s : State), busWrite 0x006#13 d s = .next s) ∧
  (∀ s : State, busRead s 0x006#13 = .ok (s.elen.setWidth 64)) ∧
  (∀ (s t : State), s.elen ≠ 0#4 → step s = .next t → t.elen = 0#4 →
    ∃ rest, s.hostQueue = .powerOnReset :: rest ∨
      s.hostQueue = .access (.write 0x001#13 (encode .srst)) :: rest) ∧
  (∀ c : Config, (State.powerOn c).elen = 0#4) ∧
  (∀ (s t : State), s.elen.toNat ≤ 10 → step s = .next t → t.elen.toNat ≤ 10)

/-- R25, R29: where the fields of STATUS lie in the word a read returns, that the reserved bits read 0, that a write
is ignored, that only commands change STATUS, and that DSTATE = 3 and ERR = 4 to 15 are never produced. -/
def Obligations.StatusWordHoldsItsFields : Prop :=
  (∀ s : State, ∃ w, busRead s 0x002#13 = .ok w ∧ w.extractLsb' 0 2 = s.status.dstate ∧ w.extractLsb' 2 2 = 0#2 ∧
    w.extractLsb' 4 4 = s.status.err ∧ w.getLsbD 8 = s.status.sticky ∧ w.extractLsb' 9 55 = 0#55) ∧
  (∀ (s : State) (d : Word), busWrite 0x002#13 d s = .next s) ∧
  (∀ (s t : State) (a : BusAddr) (d : Word), a ≠ 0x001#13 → busWrite a d s = .next t → t.status = s.status) ∧
  (∀ (s t : State) (a : BusAddr), performAccess (.read a) s = .next t → t.status = s.status) ∧
  (∀ c : Config, (State.powerOn c).status = { dstate := 0#2, err := 0#4, sticky := false }) ∧
  (∀ (s t : State), s.status.dstate ≠ 3#2 → s.status.err.toNat ≤ 3 → step s = .next t →
    t.status.dstate ≠ 3#2 ∧ t.status.err.toNat ≤ 3)

/-- R26: who sets ERR to which code. A legal command other than NOP that succeeds, and reset, set 0; DEC and DECA set
1 exactly on TruncatedInput and 2 exactly on Overflow; an illegal word sets 3; NOP keeps it; 4 to 15 are never held. -/
def Obligations.ErrNamesTheLastErrorKind : Prop :=
  (∀ (i : Instr) (s : State), i ≠ .nop → i ≠ .dec → i ≠ .deca → ∃ t, exec i s = .next t ∧ t.status.err = 0#4) ∧
  (∀ (i : Instr) (s t : State), (i = .dec ∨ i = .deca) → exec i s = .next t →
    (t.status.err = 1#4 ↔ TruncatedAt s.ibuf s.offset.toNat s.ilen.toNat) ∧
    (t.status.err = 2#4 ↔ OverflowAt s.ibuf s.offset.toNat s.ilen.toNat) ∧
    (t.status.err = 0#4 ∨ t.status.err = 1#4 ∨ t.status.err = 2#4)) ∧
  (∀ (d : Word) (s : State), (∀ i, d ≠ encode i) → ∃ t, busWrite 0x001#13 d s = .next t ∧ t.status.err = 3#4) ∧
  (∀ s : State, exec .nop s = .next s) ∧
  (∀ c : Config, (State.powerOn c).status.err = 0#4) ∧
  (∀ (s t : State), s.status.err.toNat ≤ 3 → step s = .next t → t.status.err.toNat ≤ 3)

/-- R27: DSTATE is TERMINATED after a decode that succeeds, ERROR after one that fails, IDLE after CLRS, SRST and
reset; nothing else writes it; 3 is never held. -/
def Obligations.DstateIsTheOutcomeOfTheLastDecode : Prop :=
  (∀ (i : Instr) (s t : State), (i = .dec ∨ i = .deca) → exec i s = .next t →
    t.status.dstate = if t.status.err = 0#4 then 1#2 else 2#2) ∧
  (∀ s : State, ∃ t u, exec .clrs s = .next t ∧ exec .srst s = .next u ∧ t.status.dstate = 0#2 ∧
    u.status.dstate = 0#2) ∧
  (∀ c : Config, (State.powerOn c).status.dstate = 0#2) ∧
  (∀ (d : Word) (s t : State), busWrite 0x001#13 d s = .next t → d ≠ encode .dec → d ≠ encode .deca →
    d ≠ encode .clrs → d ≠ encode .srst → t.status.dstate = s.status.dstate) ∧
  (∀ (s t : State) (a : BusAddr) (d : Word), a ≠ 0x001#13 → busWrite a d s = .next t →
    t.status.dstate = s.status.dstate) ∧
  (∀ (s t : State), s.status.dstate ≠ 3#2 → step s = .next t → t.status.dstate ≠ 3#2)

/-- R28: a command that sets ERR to a non-zero value sets STICKY. Only CLRS, SRST and reset clear it, and they do. -/
def Obligations.StickyStaysUntilCleared : Prop :=
  (∀ (d : Word) (s t : State), busWrite 0x001#13 d s = .next t → d ≠ encode .nop → t.status.err ≠ 0#4 →
    t.status.sticky = true) ∧
  (∀ (s t : State), s.status.sticky = true → step s = .next t → t.status.sticky = false →
    ∃ rest, s.hostQueue = .powerOnReset :: rest ∨
      s.hostQueue = .access (.write 0x001#13 (encode .clrs)) :: rest ∨
      s.hostQueue = .access (.write 0x001#13 (encode .srst)) :: rest) ∧
  (∀ s : State, ∃ t u, exec .clrs s = .next t ∧ exec .srst s = .next u ∧ t.status.sticky = false ∧
    u.status.sticky = false) ∧
  (∀ s : State, (powerOnReset s).status.sticky = false)

/-- R30: the fields of ID for every build, its value for the default build, and that a write is ignored. -/
def Obligations.IdReadsItsConstant : Prop :=
  (∀ s : State, ∃ w, busRead s 0x000#13 = .ok w ∧ w.extractLsb' 32 32 = 0x56415249#32 ∧ w.extractLsb' 24 8 = 0#8 ∧
    w.extractLsb' 16 8 = 0x01#8 ∧ (w.extractLsb' 0 16).toNat = s.config.ibufSize) ∧
  (∀ s : State, s.config.ibufSize = 256 → busRead s 0x000#13 = .ok 0x5641524900010100#64) ∧
  (∀ (s : State) (d : Word), busWrite 0x000#13 d s = .next s)

/-- R42, R43: a write of `d` to OFFSET or ILEN stores `min(d, IBUF_SIZE)` in that register and changes nothing else. -/
def Obligations.OffsetAndIlenWritesClamp : Prop :=
  (∀ (s : State) (d : Word), ∃ v : BitVec 16, busWrite 0x007#13 d s = .next { s with offset := v } ∧
    v.toNat = min d.toNat s.config.ibufSize) ∧
  (∀ (s : State) (d : Word), ∃ v : BitVec 16, busWrite 0x008#13 d s = .next { s with ilen := v } ∧
    v.toNat = min d.toNat s.config.ibufSize)

/-- R41: OFFSET and ILEN never exceed IBUF_SIZE. OFFSET above ILEN is allowed, and a decode from there raises
TruncatedInput. -/
def Obligations.OffsetAndIlenStayInTheBuffer : Prop :=
  (∀ c : Config, OffsetsBounded (State.powerOn c)) ∧
  (∀ (s t : State), OffsetsBounded s → step s = .next t → OffsetsBounded t) ∧
  (∃ s : State, Inv s ∧ s.ilen.toNat < s.offset.toNat) ∧
  (∀ (i : Instr) (s : State), (i = .dec ∨ i = .deca) → s.ilen.toNat < s.offset.toNat →
    exec i s = .next { s with cnt := 0#4, status := { dstate := 2#2, err := 1#4, sticky := true } })

/-- R39: the write sets of all commands: whatever a command's row leaves blank is unchanged, IN, ILEN and IBUF are
written by no command but SRST (which keeps IBUF), and no command touches the host or the build parameters. -/
def Obligations.CommandsWriteOnlyTheirWriteSets : Prop :=
  (∀ (s t : State), exec .nop s = .next t → SameBlock s t ∧ SameHost s t) ∧
  (∀ (s t : State), exec .enc s = .next t →
    SameHost s t ∧ SameIbuf s t ∧ t.inReg = s.inReg ∧ t.out = s.out ∧ t.cnt = s.cnt ∧ t.offset = s.offset ∧
      t.ilen = s.ilen ∧ t.status.dstate = s.status.dstate ∧ t.status.err = 0#4 ∧
      t.status.sticky = s.status.sticky) ∧
  (∀ (i : Instr) (s t : State), (i = .zze32 ∨ i = .zze64 ∨ i = .zzd32 ∨ i = .zzd64) → exec i s = .next t →
    SameHost s t ∧ SameIbuf s t ∧ t.inReg = s.inReg ∧ t.cnt = s.cnt ∧ t.elen = s.elen ∧ t.ebuf = s.ebuf ∧
      t.offset = s.offset ∧ t.ilen = s.ilen ∧ t.status.dstate = s.status.dstate ∧ t.status.err = 0#4 ∧
      t.status.sticky = s.status.sticky) ∧
  (∀ (i : Instr) (s t : State), (i = .dec ∨ i = .deca) → exec i s = .next t →
    SameHost s t ∧ SameIbuf s t ∧ t.inReg = s.inReg ∧ t.elen = s.elen ∧ t.ebuf = s.ebuf ∧ t.ilen = s.ilen ∧
      (t.status.err = 0#4 → 1 ≤ t.cnt.toNat ∧ t.cnt.toNat ≤ 10 ∧ t.status.dstate = 1#2 ∧
        t.status.sticky = s.status.sticky ∧
        t.offset.toNat = s.offset.toNat + (if i = .deca then t.cnt.toNat else 0)) ∧
      (t.status.err ≠ 0#4 → t.out = s.out ∧ t.cnt = 0#4 ∧ t.offset = s.offset ∧ t.status.dstate = 2#2 ∧
        (t.status.err = 1#4 ∨ t.status.err = 2#4) ∧ t.status.sticky = true)) ∧
  (∀ (s t : State), exec .clrs s = .next t →
    SameHost s t ∧ SameIbuf s t ∧ t.inReg = s.inReg ∧ t.out = s.out ∧ t.cnt = s.cnt ∧ t.elen = s.elen ∧
      t.ebuf = s.ebuf ∧ t.offset = s.offset ∧ t.ilen = s.ilen ∧ t.status.dstate = 0#2 ∧ t.status.err = 0#4 ∧
      t.status.sticky = false) ∧
  (∀ (s t : State), exec .srst s = .next t →
    SameHost s t ∧ SameIbuf s t ∧ t.inReg = 0#64 ∧ t.out = 0#64 ∧ t.cnt = 0#4 ∧ t.elen = 0#4 ∧
      (∀ k : Fin 10, t.ebuf[k] = 0#8) ∧ t.offset = 0#16 ∧ t.ilen = 0#16 ∧ t.status.dstate = 0#2 ∧
      t.status.err = 0#4 ∧ t.status.sticky = false) ∧
  (∀ (d : Word) (s t : State), (∀ i, d ≠ encode i) → busWrite 0x001#13 d s = .next t →
    SameHost s t ∧ SameIbuf s t ∧ t.inReg = s.inReg ∧ t.out = s.out ∧ t.cnt = s.cnt ∧ t.elen = s.elen ∧
      t.ebuf = s.ebuf ∧ t.offset = s.offset ∧ t.ilen = s.ilen ∧ t.status.dstate = s.status.dstate ∧
      t.status.err = 3#4 ∧ t.status.sticky = true)

/-! ### The bus -/

/-- R61, R63, R64, R69: a read changes nothing but what the host has read, so that reading again returns the same
word; and what a read of every word address returns, an IBUF word where all its bytes are written. -/
def Obligations.ReadsFollowTheAddressMap : Prop :=
  (∀ (s t : State) (a : BusAddr), performAccess (.read a) s = .next t →
    ∃ v, busRead s a = .ok v ∧ t = { s with hostReads := s.hostReads ++ [v] } ∧ busRead t a = .ok v) ∧
  ∀ s : State,
    busRead s 0x000#13 = .ok (idWord s.config) ∧ busRead s 0x001#13 = .ok 0#64 ∧
    busRead s 0x002#13 = .ok (Status.word s.status) ∧ busRead s 0x003#13 = .ok s.inReg ∧
    busRead s 0x004#13 = .ok s.out ∧ busRead s 0x005#13 = .ok (s.cnt.setWidth 64) ∧
    busRead s 0x006#13 = .ok (s.elen.setWidth 64) ∧ busRead s 0x007#13 = .ok (s.offset.setWidth 64) ∧
    busRead s 0x008#13 = .ok (s.ilen.setWidth 64) ∧
    (∀ a : BusAddr, (0x009 ≤ a.toNat ∧ a.toNat ≤ 0x00F) ∨ (0x012 ≤ a.toNat ∧ a.toNat ≤ 0x0FFF) ∨
      0x1000 + s.config.ibufSize / 8 ≤ a.toNat → busRead s a = .ok 0#64) ∧
    (∃ w, busRead s 0x010#13 = .ok w ∧ ∀ k : Fin 10, k.val < 8 → w.extractLsb' (8 * k.val) 8 = s.ebuf[k]) ∧
    (∃ w, busRead s 0x011#13 = .ok w ∧ w.extractLsb' 0 8 = s.ebuf[8] ∧ w.extractLsb' 8 8 = s.ebuf[9] ∧
      w.extractLsb' 16 48 = 0#48) ∧
    (∀ j < s.config.ibufSize / 8, ∀ bs : List Byte, bs.length = 8 → BytesAt s.ibuf (8 * j) bs →
      ∃ w, busRead s (BitVec.ofNat 13 (0x1000 + j)) = .ok w ∧
        ∀ i < 8, w.extractLsb' (8 * i) 8 = bs.getD i 0#8)

/-- R62, R63, R64: what a write to every word address does. -/
def Obligations.WritesFollowTheAddressMap : Prop :=
  ∀ (s : State) (d : Word),
    busWrite 0x001#13 d s = commandWrite d s ∧
    busWrite 0x003#13 d s = .next { s with inReg := d } ∧
    busWrite 0x007#13 d s = .next { s with offset := BitVec.ofNat 16 (min d.toNat s.config.ibufSize) } ∧
    busWrite 0x008#13 d s = .next { s with ilen := BitVec.ofNat 16 (min d.toNat s.config.ibufSize) } ∧
    (∀ a : BusAddr, a.toNat = 0x000 ∨ a.toNat = 0x002 ∨ (0x004 ≤ a.toNat ∧ a.toNat ≤ 0x006) ∨
      (0x009 ≤ a.toNat ∧ a.toNat ≤ 0x0FFF) ∨ 0x1000 + s.config.ibufSize / 8 ≤ a.toNat →
      busWrite a d s = .next s) ∧
    (∀ j < s.config.ibufSize / 8, ∃ m, busWrite (BitVec.ofNat 13 (0x1000 + j)) d s = .next { s with ibuf := m } ∧
      (∀ i < 8, Memory.read m (8 * j + i) = some (d.extractLsb' (8 * i) 8)) ∧
      ∀ k, k < 8 * j ∨ 8 * j + 8 ≤ k → Memory.read m k = Memory.read s.ibuf k)

/-- R65: byte buffers are packed little-endian. A word written to IBUF word `j` is read back whole, its byte `i` is
IBUF byte `8j+i`, and a read of word `j` is the concatenation of bytes `8j+7` down to `8j`; EBUF likewise. -/
def Obligations.BuffersArePackedLittleEndian : Prop :=
  (∀ (s t : State) (j : Nat) (d : Word), j < s.config.ibufSize / 8 →
    busWrite (BitVec.ofNat 13 (0x1000 + j)) d s = .next t →
      busRead t (BitVec.ofNat 13 (0x1000 + j)) = .ok d ∧
      ∀ i < 8, Memory.read t.ibuf (8 * j + i) = some (d.extractLsb' (8 * i) 8)) ∧
  (∀ (s : State) (j : Nat) (b0 b1 b2 b3 b4 b5 b6 b7 : Byte), j < s.config.ibufSize / 8 →
    BytesAt s.ibuf (8 * j) [b0, b1, b2, b3, b4, b5, b6, b7] →
      busRead s (BitVec.ofNat 13 (0x1000 + j)) = .ok (b7 ++ b6 ++ b5 ++ b4 ++ b3 ++ b2 ++ b1 ++ b0)) ∧
  (∀ s : State, busRead s 0x010#13 =
    .ok (s.ebuf[7] ++ s.ebuf[6] ++ s.ebuf[5] ++ s.ebuf[4] ++ s.ebuf[3] ++ s.ebuf[2] ++ s.ebuf[1] ++ s.ebuf[0])) ∧
  (∀ s : State, busRead s 0x011#13 = .ok ((s.ebuf[9] ++ s.ebuf[8]).setWidth 64))

/-- R69: a write to IN, OFFSET, ILEN or an IBUF word twice has the effect of writing it once, and so does a write to
any other address that is not CMD. -/
def Obligations.StoringTwiceIsStoringOnce : Prop :=
  ∀ (s t : State) (a : BusAddr) (d : Word), Memory.wf s.ibuf = true → a ≠ 0x001#13 →
    busWrite a d s = .next t → busWrite a d t = .next t

/-- R232, R233: OUT, CNT, EBUF, ELEN and STATUS keep what the last command left while the host writes anything but
CMD, and OUT and EBUF keep it through the commands that do not write them. -/
def Obligations.ResultsHoldUntilTheNextCommand : Prop :=
  (∀ (s t : State) (a : BusAddr) (d : Word), a ≠ 0x001#13 → busWrite a d s = .next t →
    t.out = s.out ∧ t.cnt = s.cnt ∧ t.ebuf = s.ebuf ∧ t.elen = s.elen ∧ t.status = s.status) ∧
  (∀ (i : Instr) (s t : State), exec i s = .next t → i ≠ .srst →
    (i = .nop ∨ i = .enc ∨ i = .clrs → t.out = s.out) ∧
    (i = .dec ∨ i = .deca → t.status.err ≠ 0#4 → t.out = s.out) ∧ (i ≠ .dec → i ≠ .deca → t.cnt = s.cnt) ∧
    (i ≠ .enc → t.ebuf = s.ebuf ∧ t.elen = s.elen))

/-- R76: a bus read of an IBUF word faults exactly when one of its bytes is unwritten; a bus write to the word makes
all its bytes written; a written byte stays written until power-on reset, whatever else the step does; power-on reset
unwrites every byte. -/
def Obligations.UnwrittenBytesFaultUntilWritten : Prop :=
  (∀ (s : State) (j : Nat), j < s.config.ibufSize / 8 →
    (busRead s (BitVec.ofNat 13 (0x1000 + j)) = .error (.busReadsUnwritten j) ↔
      ∃ i < 8, Memory.read s.ibuf (8 * j + i) = none)) ∧
  (∀ (i : Instr) (s : State), (i = .dec ∨ i = .deca) →
    ((∃ k, exec i s = .fault (.decodeReadsUnwritten k)) ↔
      ∃ n < 10, s.offset.toNat + n < s.ilen.toNat ∧ ContinuationRun s.ibuf s.offset.toNat n ∧
        Memory.read s.ibuf (s.offset.toNat + n) = none)) ∧
  (∀ (s t : State) (j i : Nat) (d : Word), j < s.config.ibufSize / 8 → i < 8 →
    busWrite (BitVec.ofNat 13 (0x1000 + j)) d s = .next t → (Memory.read t.ibuf (8 * j + i)).isSome = true) ∧
  (∀ (s t : State) (k : Nat), (Memory.read s.ibuf k).isSome = true → step s = .next t →
    (∃ rest, s.hostQueue = .powerOnReset :: rest) ∨ (Memory.read t.ibuf k).isSome = true) ∧
  (∀ (s : State) (k : Nat), Memory.read (powerOnReset s).ibuf k = none)

/-- R75, R76, R194: a step never refuses, and it faults only where it reads an unwritten byte: a CMD write of DEC or
DECA whose decode reaches one, at an index below ILEN, or a read of an IBUF word that holds one. -/
def Obligations.OnlyUnwrittenBytesStopAStep : Prop :=
  (∀ (s : State) (r : Refusal), step s ≠ .refused r) ∧
  (∀ (s : State) (f : Fault), step s = .fault f →
    ∃ rest,
      (∃ d k, s.hostQueue = .access (.write 0x001#13 d) :: rest ∧ IsDecodeWord d ∧ f = .decodeReadsUnwritten k ∧
        s.offset.toNat ≤ k ∧ k < s.ilen.toNat ∧ Memory.read s.ibuf k = none) ∨
      (∃ a j i, s.hostQueue = .access (.read a) :: rest ∧ f = .busReadsUnwritten j ∧ a.toNat = 0x1000 + j ∧
        j < s.config.ibufSize / 8 ∧ i < 8 ∧ Memory.read s.ibuf (8 * j + i) = none))

/-! ### varint_encoder -/

/-- R101: the encode function's equation, with no bound on the loop: emit the low 7 bits, shift right by 7, set the
continuation flag when anything is left, stop when nothing is. Zero still gives one byte, and ten groups suffice. -/
def Obligations.EncodeFollowsItsLoop : Prop :=
  (∀ n : Word,
    varintEncode n =
      if n >>> 7 = 0#64 then [(n.extractLsb' 0 7).setWidth 8]
      else (0x80#8 ||| (n.extractLsb' 0 7).setWidth 8) :: varintEncode (n >>> 7)) ∧
  varintEncode 0#64 = [0x00#8] ∧
  (∀ n : Word, 1 ≤ (varintEncode n).length ∧ (varintEncode n).length ≤ 10)

/-- R100, R101: the encoder's output is a varint, and its value is the operand. -/
def Obligations.EncodeProducesAVarintOfItsOperand : Prop :=
  ∀ n : Word, IsVarint (varintEncode n) ∧ varintValue (varintEncode n) = n.toNat

/-- R102: the length formula, that the length never decreases as the operand grows, the two ends of every range, and
that the last byte of a ten-byte encoding is 0x01. -/
def Obligations.EncodeLengthFollowsTheBitLength : Prop :=
  (∀ n : Word, (varintEncode n).length = max 1 ((Nat.size n.toNat + 6) / 7)) ∧
  (∀ n n' : Word, n.toNat ≤ n'.toNat → (varintEncode n).length ≤ (varintEncode n').length) ∧
  (∀ (n : Word) (l : Nat), 1 ≤ l → l ≤ 10 →
    ((varintEncode n).length = l ↔ (l = 1 ∨ 2 ^ (7 * (l - 1)) ≤ n.toNat) ∧ n.toNat < 2 ^ min (7 * l) 64)) ∧
  (∀ n : Word, (varintEncode n).length = 10 → (varintEncode n).getLast? = some 0x01#8)

/-- R100, R101: the encoder's output is the shortest varint of its operand. That it is also the only one of its length
follows from R100's format and value; it is the model's reading (DEDUCED, log entry 11), against the last sentence of
R124, by which value and count do not determine the bytes. -/
def Obligations.EncodeIsTheShortestVarint : Prop :=
  ∀ (n : Word) (bs : List Byte), IsVarint bs → varintValue bs = n.toNat →
    (varintEncode n).length ≤ bs.length ∧ (bs.length = (varintEncode n).length → bs = varintEncode n)

/-- R103: ENC completes from every state. EBUF holds the encoding of IN and zeros after it, ELEN its length, ERR is
NONE, and everything else is as before. -/
def Obligations.EncWritesTheEncodingOfIn : Prop :=
  decode 0x0000000000000001#64 = .ok .enc ∧
  ∀ s : State, ∃ (e : Vector Byte 10) (l : BitVec 4),
    exec .enc s = .next { s with ebuf := e, elen := l, status := { s.status with err := 0#4 } } ∧
    l.toNat = (varintEncode s.inReg).length ∧
    ∀ k : Fin 10, e[k] = if k.val < l.toNat then (varintEncode s.inReg).getD k.val 0#8 else 0#8

/-! ### varint_decoder -/

/-- R122: the decode fails with TruncatedInput exactly when the buffer ends before a terminator is found within the
first ten bytes. -/
def Obligations.TruncatedInputExactlyWhenTheBufferEnds : Prop :=
  ∀ (m : Memory) (p e : Nat), varintDecode m p e = .err .truncatedInput ↔ TruncatedAt m p e

/-- R123: the decode fails with Overflow exactly on nine continuation bytes and a tenth byte in the buffer that has
bit 7 or one of bits 6:1 set. -/
def Obligations.OverflowExactlyOnTheTenthByte : Prop :=
  ∀ (m : Memory) (p e : Nat), varintDecode m p e = .err .overflow ↔ OverflowAt m p e

/-- R100, R121, R124: the decode succeeds with `v` after `c` bytes exactly when a varint of `c` bytes, canonical or
overlong, lies written below the buffer's end and its value is `v`. -/
def Obligations.DecodeSucceedsExactlyOnAVarint : Prop :=
  ∀ (m : Memory) (p e : Nat) (v : Word) (c : Nat),
    varintDecode m p e = .ok v c ↔
      ∃ bs, IsVarint bs ∧ bs.length = c ∧ BytesAt m p bs ∧ p + c ≤ e ∧ varintValue bs = v.toNat

/-- R125: which bytes a decode reads. On success the first `cnt` bytes decide the result, on TruncatedInput the bytes
up to the buffer's end, on Overflow ten bytes; no byte at or above the buffer's end and none after the terminator
matters. It meets an unwritten byte exactly when it would have to read one. -/
def Obligations.DecodeDependsOnlyOnTheBytesItReads : Prop :=
  ∀ (m m' : Memory) (p e : Nat),
    (∀ v c, varintDecode m p e = .ok v c → AgreeOn m m' p c → varintDecode m' p e = .ok v c) ∧
    (varintDecode m p e = .err .truncatedInput → AgreeOn m m' p (e - p) →
      varintDecode m' p e = .err .truncatedInput) ∧
    (varintDecode m p e = .err .overflow → AgreeOn m m' p 10 → varintDecode m' p e = .err .overflow) ∧
    ((∃ k, varintDecode m p e = .unwritten k) ↔
      ∃ n < 10, p + n < e ∧ ContinuationRun m p n ∧ Memory.read m (p + n) = none)

/-- R195: a decode reports the first condition it meets. Nine continuation bytes that end the buffer give
TruncatedInput; ten give Overflow whatever follows; bit 7 and bits 6:1 of the tenth byte give the same kind. -/
def Obligations.DecodeReportsTheFirstCondition : Prop :=
  ∀ (m : Memory) (p e : Nat), ContinuationRun m p 9 →
    (e = p + 9 → varintDecode m p e = .err .truncatedInput) ∧
    (ContinuationRun m p 10 → p + 10 ≤ e → varintDecode m p e = .err .overflow) ∧
    (∀ b, Memory.read m (p + 9) = some b → b.extractLsb' 1 6 ≠ 0#6 → p + 10 ≤ e →
      varintDecode m p e = .err .overflow)

/-- R126, R193: DEC. On a varint below the buffer's end it writes OUT, CNT, DSTATE = TERMINATED and ERR = NONE; on
TruncatedInput and Overflow it writes CNT = 0, DSTATE = ERROR, the kind and STICKY. All else is unchanged. -/
def Obligations.DecRecordsItsDecode : Prop :=
  decode 0x0000000000000002#64 = .ok .dec ∧
  ∀ s : State,
    (∀ bs, IsVarint bs → varintValue bs < 2 ^ 64 → BytesAt s.ibuf s.offset.toNat bs →
      s.offset.toNat + bs.length ≤ s.ilen.toNat →
      ∃ (v : Word) (c : BitVec 4), v.toNat = varintValue bs ∧ c.toNat = bs.length ∧
        exec .dec s = .next { s with out := v, cnt := c, status := { s.status with dstate := 1#2, err := 0#4 } }) ∧
    (TruncatedAt s.ibuf s.offset.toNat s.ilen.toNat →
      exec .dec s = .next { s with cnt := 0#4, status := { dstate := 2#2, err := 1#4, sticky := true } }) ∧
    (OverflowAt s.ibuf s.offset.toNat s.ilen.toNat →
      exec .dec s = .next { s with cnt := 0#4, status := { dstate := 2#2, err := 2#4, sticky := true } })

/-- R127, R130, R193: DECA. As DEC, and on success OFFSET advances by the consumed count and stays at or below ILEN;
on an error OFFSET still points at the varint that failed. -/
def Obligations.DecaAdvancesPastTheVarint : Prop :=
  decode 0x0000000000000003#64 = .ok .deca ∧
  ∀ s : State,
    (∀ bs, IsVarint bs → varintValue bs < 2 ^ 64 → BytesAt s.ibuf s.offset.toNat bs →
      s.offset.toNat + bs.length ≤ s.ilen.toNat →
      ∃ (v : Word) (c : BitVec 4) (o : BitVec 16), v.toNat = varintValue bs ∧ c.toNat = bs.length ∧
        o.toNat = s.offset.toNat + bs.length ∧
        exec .deca s = .next
          { s with out := v, cnt := c, offset := o, status := { s.status with dstate := 1#2, err := 0#4 } }) ∧
    (TruncatedAt s.ibuf s.offset.toNat s.ilen.toNat →
      exec .deca s = .next { s with cnt := 0#4, status := { dstate := 2#2, err := 1#4, sticky := true } }) ∧
    (OverflowAt s.ibuf s.offset.toNat s.ilen.toNat →
      exec .deca s = .next { s with cnt := 0#4, status := { dstate := 2#2, err := 2#4, sticky := true } })

/-- R126, R129: a decode command always ends: where every byte it could need is written it answers a next state, and
that state is terminated or error. -/
def Obligations.DecodeCommandsCompleteOnWrittenBytes : Prop :=
  ∀ (i : Instr) (s : State), (i = .dec ∨ i = .deca) → DecodeReadable s.ibuf s.offset.toNat s.ilen.toNat →
    ∃ t, exec i s = .next t ∧ (t.status.dstate = 1#2 ∨ t.status.dstate = 2#2)

/-- R128: round trip. Where the encoding of `n` lies in IBUF at OFFSET and below ILEN, DEC and DECA succeed with
OUT = `n` and CNT = its length. -/
def Obligations.DecodeUndoesEncode : Prop :=
  ∀ (s : State) (n : Word) (i : Instr), (i = .dec ∨ i = .deca) →
    BytesAt s.ibuf s.offset.toNat (varintEncode n) →
    s.offset.toNat + (varintEncode n).length ≤ s.ilen.toNat →
    ∃ t, exec i s = .next t ∧ t.out = n ∧ t.cnt.toNat = (varintEncode n).length ∧ t.status.err = 0#4 ∧
      t.status.dstate = 1#2

/-- R104: the stream encoder's bytes are the concatenation of the encodings, from every state and for every list of
values. -/
def Obligations.StreamEncodeConcatenates : Prop :=
  ∀ (vs : List Word) (s : State), ∃ t, streamEncode vs s = .next ((vs.map varintEncode).flatten, t)

/-- R131, R133: stream round trip. For every list of values whose concatenated encoding fits in IBUF, DECODE_ALL of
that encoding returns the list, from every state. The empty string gives the empty list and issues no DECA: STATUS and CNT
stay. -/
def Obligations.StreamDecodeUndoesStreamEncode : Prop :=
  (∀ (vs : List Word) (s : State), ((vs.map varintEncode).flatten).length ≤ s.config.ibufSize →
    ∃ t, decodeAll ((vs.map varintEncode).flatten) s = .next (.ok vs, t)) ∧
  (∀ s : State, ∃ t, decodeAll [] s = .next (.ok [], t) ∧ t.status = s.status ∧ t.cnt = s.cnt)

/-- R131, R132: DECODE_ALL ends within its bound on every byte string that fits in IBUF. When it returns an error, IBUF
holds the string and ILEN its length; the error is TruncatedInput or Overflow and the condition of R122 or R123 for it
holds at OFFSET, so OFFSET is where the failing varint starts; and the bytes before OFFSET are varints of 64-bit
values, one after another. The bound and the answer `notFinished` are the model's own (DESIGN CHOICE, log entry 9). -/
def Obligations.StreamDecodeEndsAndExposesThePrefix : Prop :=
  ∀ (bs : List Byte) (s : State), bs.length ≤ s.config.ibufSize →
    ∃ r t, decodeAll bs s = .next (r, t) ∧ r ≠ .notFinished ∧
      (∀ k, r = .err k → (k = 1#4 ∨ k = 2#4) ∧ t.status.err = k ∧
        BytesAt t.ibuf 0 bs ∧ t.ilen.toNat = bs.length ∧ t.offset.toNat < bs.length ∧
        (k = 1#4 → TruncatedAt t.ibuf t.offset.toNat t.ilen.toNat) ∧
        (k = 2#4 → OverflowAt t.ibuf t.offset.toNat t.ilen.toNat) ∧
        ∃ vs : List (List Byte), (∀ v ∈ vs, IsVarint v ∧ varintValue v < 2 ^ 64) ∧
          vs.flatten = bs.take t.offset.toNat)

/-- R134: a stream of any length decodes in pieces: the decoder of long streams returns every list of values from the
concatenation of their encodings, whatever IBUF_SIZE is. The length of a piece, as much as IBUF holds, is the model's
choice (DESIGN CHOICE, log entry 9). -/
def Obligations.LongStreamsDecodeInPieces : Prop :=
  ∀ (vs : List Word) (s : State), ∃ t, decodeLong ((vs.map varintEncode).flatten) s = .next (.ok vs, t)

/-! ### zigzag_transform -/

/-- R150 to R157: the four ZigZag commands complete from every state with the result the rules give, ERR = NONE, and
everything else unchanged. -/
def Obligations.ZigzagCommandsWriteTheirResult : Prop :=
  decode 0x0000000000000004#64 = .ok .zze32 ∧ decode 0x0000000000000005#64 = .ok .zze64 ∧
  decode 0x0000000000000006#64 = .ok .zzd32 ∧ decode 0x0000000000000007#64 = .ok .zzd64 ∧
  ∀ (s : State) (n : BitVec 32), n = s.inReg.extractLsb' 0 32 →
    exec .zze32 s = .next { s with
      out := ((n <<< 1) ^^^ n.sshiftRight 31).setWidth 64, status := { s.status with err := 0#4 } } ∧
    exec .zze64 s = .next { s with
      out := (s.inReg <<< 1) ^^^ s.inReg.sshiftRight 63, status := { s.status with err := 0#4 } } ∧
    exec .zzd32 s = .next { s with
      out := ((n >>> 1) ^^^ -(n &&& 1#32)).signExtend 64, status := { s.status with err := 0#4 } } ∧
    exec .zzd64 s = .next { s with
      out := (s.inReg >>> 1) ^^^ -(s.inReg &&& 1#64), status := { s.status with err := 0#4 } }

/-- R158: the closed forms, over the integers, at both widths. -/
def Obligations.ZigzagClosedForms : Prop :=
  (∀ n : BitVec 32, ((zzEnc32 n).toNat : Int) = if 0 ≤ n.toInt then 2 * n.toInt else -2 * n.toInt - 1) ∧
  (∀ n : BitVec 64, ((zzEnc64 n).toNat : Int) = if 0 ≤ n.toInt then 2 * n.toInt else -2 * n.toInt - 1) ∧
  (∀ u : BitVec 32, (zzDec32 u).toInt =
    if u.toNat % 2 = 0 then (u.toNat : Int) / 2 else -(((u.toNat : Int) + 1) / 2)) ∧
  (∀ u : BitVec 64, (zzDec64 u).toInt =
    if u.toNat % 2 = 0 then (u.toNat : Int) / 2 else -(((u.toNat : Int) + 1) / 2))

/-- R159: encode and decode are exact inverses at both widths, as functions and as commands of the block. -/
def Obligations.ZigzagInverses : Prop :=
  (∀ n : BitVec 32, zzDec32 (zzEnc32 n) = n ∧ zzEnc32 (zzDec32 n) = n) ∧
  (∀ n : BitVec 64, zzDec64 (zzEnc64 n) = n ∧ zzEnc64 (zzDec64 n) = n) ∧
  (∀ s : State, ∃ t u, exec .zze32 s = .next t ∧ exec .zzd32 { t with inReg := t.out } = .next u ∧
    u.out = (s.inReg.extractLsb' 0 32).signExtend 64) ∧
  (∀ s : State, ∃ t u, exec .zze64 s = .next t ∧ exec .zzd64 { t with inReg := t.out } = .next u ∧
    u.out = s.inReg)

/-- R160: the widths agree, so a value encoded with ZZE32 may be decoded with ZZD64. -/
def Obligations.ZigzagWidthsAgree : Prop :=
  (∀ n : BitVec 32, (zzEnc32 n).setWidth 64 = zzEnc64 (n.signExtend 64)) ∧
  (∀ u : BitVec 32, (zzDec32 u).signExtend 64 = zzDec64 (u.setWidth 64)) ∧
  (∀ s : State, ∃ t u u', exec .zze32 s = .next t ∧ exec .zzd32 { t with inReg := t.out } = .next u ∧
    exec .zzd64 { t with inReg := t.out } = .next u' ∧ u'.out = u.out)

/-- R161: a ZZE32 result is below 2^32 and its varint is at most 5 bytes long; a signed value encoded by the host's
chain of ZZE64 and ENC is the varint of its ZigZag encoding, and -1 is the one byte 0x01; the host's chain of DECA and
ZZD64 decodes such bytes back to the value. An integer `v` of more than 64 bits is no value of the rules: that the chain
keeps it modulo 2^64 is the model's choice (DESIGN CHOICE, log entry 13). -/
def Obligations.ZigzagResultsEncodeShort : Prop :=
  (∀ s : State, ∃ t, exec .zze32 s = .next t ∧ t.out.toNat < 2 ^ 32 ∧ (varintEncode t.out).length ≤ 5) ∧
  (∀ (s : State) (v : Int), ∃ t, encodeSigned v s = .next (varintEncode (zzEnc64 (BitVec.ofInt 64 v)), t)) ∧
  varintEncode (zzEnc64 (BitVec.ofInt 64 (-1))) = [0x01#8] ∧
  (∀ (s : State) (v : Word), BytesAt s.ibuf s.offset.toNat (varintEncode (zzEnc64 v)) →
    s.offset.toNat + (varintEncode (zzEnc64 v)).length ≤ s.ilen.toNat →
    ∃ t, decodeSigned s = .next (v, t))

/-! ### Control commands -/

/-- R170: NOP changes no state, not even ERR; only the all-zero word is a NOP. -/
def Obligations.NopChangesNothing : Prop :=
  (∀ s : State, exec .nop s = .next s) ∧
  (∀ d : Word, d.extractLsb' 0 8 = 0x00#8 → d ≠ 0#64 → decode d = .error .reservedBitsSet) ∧
  decode 0x0000000000000000#64 = .ok .nop

/-- R171: CLRS clears the three fields of STATUS and leaves everything else, a failing DECA's OFFSET included. -/
def Obligations.ClrsClearsStatusOnly : Prop :=
  decode 0x0000000000000008#64 = .ok .clrs ∧
  ∀ s : State, exec .clrs s = .next { s with status := { dstate := 0#2, err := 0#4, sticky := false } }

/-- R172, R221: SRST gives the power-on state of the block, except that IBUF and its written marks are kept. -/
def Obligations.SrstIsPowerOnExceptIbuf : Prop :=
  decode 0x000000000000000F#64 = .ok .srst ∧
  ∀ s : State, ∃ t, exec .srst s = .next t ∧
    t = { State.powerOn s.config with ibuf := s.ibuf, hostQueue := s.hostQueue, hostReads := s.hostReads } ∧
    t.inReg = 0#64 ∧ t.out = 0#64 ∧ t.cnt = 0#4 ∧ t.elen = 0#4 ∧ t.offset = 0#16 ∧ t.ilen = 0#16 ∧
    (∀ k : Fin 10, t.ebuf[k] = 0#8) ∧ t.status = { dstate := 0#2, err := 0#4, sticky := false }

/-! ### Errors and reset -/

/-- R193, R190 to R192: `raise` sets ERR to the kind's code and STICKY to 1; a decode error also sets DSTATE = ERROR
and CNT = 0; nothing else changes. -/
def Obligations.RaiseRecordsTheErrorOnly : Prop :=
  ∀ s : State,
    raise .truncatedInput s = { s with cnt := 0#4, status := { dstate := 2#2, err := 1#4, sticky := true } } ∧
    raise .overflow s = { s with cnt := 0#4, status := { dstate := 2#2, err := 2#4, sticky := true } } ∧
    raise .illegalCommand s = { s with status := { s.status with err := 3#4, sticky := true } }

/-- R40, R222: after power-on reset of every build STATUS reads 0, ID reads its constant, every other register and
both EBUF words read 0, and every IBUF byte is unwritten. After SRST the same holds, but IBUF is unchanged. -/
def Obligations.ResetValues : Prop :=
  (∀ c : Config,
    busRead (State.powerOn c) 0x000#13 = .ok (idWord c) ∧
    (∀ a : BusAddr, 0x001 ≤ a.toNat → a.toNat ≤ 0x011 → busRead (State.powerOn c) a = .ok 0#64) ∧
    (∀ k : Fin 10, (State.powerOn c).ebuf[k] = 0#8) ∧
    (∀ k, Memory.read (State.powerOn c).ibuf k = none)) ∧
  (∀ s : State, ∃ t, exec .srst s = .next t ∧
    busRead t 0x000#13 = .ok (idWord s.config) ∧
    (∀ a : BusAddr, 0x001 ≤ a.toNat → a.toNat ≤ 0x011 → busRead t a = .ok 0#64) ∧
    (∀ k : Fin 10, t.ebuf[k] = 0#8) ∧
    (∀ k, Memory.read t.ibuf k = Memory.read s.ibuf k))

/-- R220: power-on reset puts every register, EBUF and IBUF into the reset state from any state, whatever ran before.
That the host keeps its own pending events and reads is the model's choice (log entry 5). -/
def Obligations.PowerOnResetFromAnyState : Prop :=
  ∀ (s : State) (rest : List HostEvent), s.hostQueue = .powerOnReset :: rest →
    step s = .next { State.powerOn s.config with hostQueue := rest, hostReads := s.hostReads }

/-! ### The invariant -/

/-- The invariant holds right after power-on reset of every build, and at the state after reset. -/
def Obligations.PowerOnMeetsTheInvariant : Prop :=
  (∀ c : Config, Inv (State.powerOn c)) ∧ Inv State.reset

/-- R23, R24, R28, R29, R34, R41, R68, R76: the invariant is kept by every step, whatever the host does. -/
def Obligations.EveryStepKeepsTheInvariant : Prop :=
  ∀ s t : State, Inv s → step s = .next t → Inv t

/-- R6: the build parameters are no run-time option: no step changes them, and every build's size is a legal one. -/
def Obligations.BuildParametersAreFixed : Prop :=
  (∀ s t : State, step s = .next t → t.config = s.config) ∧
  (∀ s : State, legalIbufSize s.config.ibufSize = true)

/-- Conflict C3 of `spec/90_conflicts.md`, R21, R85, R125: no result depends on any state but the listed operands.
Two states that agree on a command's operands get the same result from it. -/
def Obligations.ResultsDependOnlyOnOperands : Prop :=
  (∀ s s' : State, s.inReg = s'.inReg → ∃ t t', exec .enc s = .next t ∧ exec .enc s' = .next t' ∧
    t.ebuf = t'.ebuf ∧ t.elen = t'.elen) ∧
  (∀ (i : Instr) (s s' : State), (i = .zze32 ∨ i = .zze64 ∨ i = .zzd32 ∨ i = .zzd64) → s.inReg = s'.inReg →
    ∃ t t', exec i s = .next t ∧ exec i s' = .next t' ∧ t.out = t'.out) ∧
  (∀ (i : Instr) (s s' t : State), (i = .dec ∨ i = .deca) → s.offset = s'.offset → s.ilen = s'.ilen →
    AgreeOn s.ibuf s'.ibuf s.offset.toNat 10 → exec i s = .next t →
    ∃ t', exec i s' = .next t' ∧ t'.cnt = t.cnt ∧ t'.status.err = t.status.err ∧
      t'.status.dstate = t.status.dstate ∧ t'.offset = t.offset ∧ (t.status.err = 0#4 → t'.out = t.out))

/-! ### Runs -/

/-- R76, R194: a run of any length is safe from every state whose host has no event pending that can read an IBUF
byte. -/
def Obligations.RunsThatReadNoIbufAreSafe : Prop :=
  ∀ (n : Nat) (s : State), (∀ e ∈ s.hostQueue, ¬ MayReadIbuf e) → SafeRun n s

/-- R70, R224: a host program runs step by step: where its accesses, performed in order, end in a state, as many steps
with the program in the host's queue end in that state, the queue used up. -/
def Obligations.HostProgramsRunStepByStep : Prop :=
  ∀ (p : List BusAccess) (s t : State), runAccesses p { s with hostQueue := [] } = .next t →
    Host.Core.run Sys2Proof.core p.length { s with hostQueue := p.map HostEvent.access } = .next t
end

