-- ==== Sys2Proof/Laws/Memory.lean ====
section
/-! SUPPORT. What the byte memory operations do: read after write, what a write leaves alone, that every write keeps
the canonical form, and that canonical memories which read alike are equal. -/

namespace Sys2Proof.Machine

@[simp] theorem Memory.read_nil (k : Nat) : Memory.read [] k = none := rfl

theorem Memory.read_cons (a : Nat) (b : Byte) (m : Memory) (k : Nat) :
    Memory.read ((a, b) :: m) k = if a = k then some b else Memory.read m k := rfl

@[simp] theorem Memory.wf_nil : Memory.wf [] = true := rfl

/-- A canonical memory: the rest is canonical and every index of it is above the first. -/
theorem Memory.wf_cons (a : Nat) (b : Byte) (m : Memory) :
    Memory.wf ((a, b) :: m) = true ↔ Memory.wf m = true ∧ ∀ c ∈ m, a < c.1 := by
  induction m generalizing a b with
  | nil => simp [Memory.wf]
  | cons c m ih =>
    obtain ⟨a', b'⟩ := c
    simp only [Memory.wf, Nat.blt_eq, Bool.and_eq_true, List.forall_mem_cons]
    constructor
    · rintro ⟨h, hm⟩
      exact ⟨hm, h, fun c hc => h.trans ((ih a' b').1 hm |>.2 c hc)⟩
    · rintro ⟨hm, h, _⟩
      exact ⟨h, hm⟩

/-- Reading a byte after writing it gives the byte written, and every other byte reads as before. -/
theorem Memory.read_write (m : Memory) (k k' : Nat) (v : Byte) :
    Memory.read (Memory.write m k v) k' = if k' = k then some v else Memory.read m k' := by
  induction m with
  | nil => simp [Memory.write, Memory.read_cons, eq_comm]
  | cons c m ih =>
    obtain ⟨a, b⟩ := c
    simp only [Memory.write]
    split
    · simp [Memory.read_cons, eq_comm]
    · split
      · subst_vars
        by_cases h : k' = a <;> simp [Memory.read_cons, h, eq_comm]
      · rename_i h1 h2
        rw [Memory.read_cons, ih, Memory.read_cons]
        by_cases h : a = k'
        · subst h
          simp [show a ≠ k from fun e => h2 e.symm]
        · simp [h]

@[simp] theorem Memory.read_write_same (m : Memory) (k : Nat) (v : Byte) :
    Memory.read (Memory.write m k v) k = some v := by simp [Memory.read_write]

theorem Memory.read_write_other (m : Memory) {k k' : Nat} (v : Byte) (h : k' ≠ k) :
    Memory.read (Memory.write m k v) k' = Memory.read m k' := by simp [Memory.read_write, h]

/-- The indices a write lists are those listed before, and its own. -/
theorem Memory.mem_write (m : Memory) (k : Nat) (v : Byte) (c : Host.Cell) (h : c ∈ Memory.write m k v) :
    c = (k, v) ∨ c ∈ m := by
  induction m with
  | nil => simpa [Memory.write] using h
  | cons d m ih =>
    obtain ⟨a, b⟩ := d
    simp only [Memory.write] at h
    split at h
    · simpa using h
    · split at h
      · rcases List.mem_cons.1 h with h | h
        · exact .inl h
        · exact .inr (List.mem_cons_of_mem _ h)
      · rcases List.mem_cons.1 h with h | h
        · exact .inr (h ▸ List.mem_cons_self)
        · exact (ih h).imp_right (List.mem_cons_of_mem _)

/-- A write keeps the canonical form. -/
theorem Memory.write_wf (m : Memory) (k : Nat) (v : Byte) (h : Memory.wf m = true) :
    Memory.wf (Memory.write m k v) = true := by
  induction m with
  | nil => rfl
  | cons d m ih =>
    obtain ⟨a, b⟩ := d
    obtain ⟨hm, ha⟩ := (Memory.wf_cons a b m).1 h
    simp only [Memory.write]
    split
    · rename_i hk
      refine (Memory.wf_cons _ _ _).2 ⟨h, ?_⟩
      intro c hc
      rcases List.mem_cons.1 hc with rfl | hc
      · exact hk
      · exact hk.trans (ha c hc)
    · split
      · rename_i hk
        exact (Memory.wf_cons _ _ _).2 ⟨hm, hk ▸ ha⟩
      · rename_i h1 h2
        refine (Memory.wf_cons _ _ _).2 ⟨ih hm, fun c hc => ?_⟩
        rcases Memory.mem_write m k v c hc with rfl | hc
        · show a < k
          omega
        · exact ha c hc

theorem Memory.writeRun_wf (bs : List Byte) (m : Memory) (k : Nat) (h : Memory.wf m = true) :
    Memory.wf (Memory.writeRun m k bs) = true := by
  induction bs generalizing m k with
  | nil => exact h
  | cons b bs ih => exact ih _ _ (Memory.write_wf m k b h)

theorem Memory.writeWord_wf (m : Memory) (j : Nat) (d : Word) (h : Memory.wf m = true) :
    Memory.wf (Memory.writeWord m j d) = true := Memory.writeRun_wf _ _ _ h

/-- A run of bytes reads back, and every other byte reads as before. -/
theorem Memory.read_writeRun (bs : List Byte) (m : Memory) (k k' : Nat) :
    Memory.read (Memory.writeRun m k bs) k' =
      if k ≤ k' ∧ k' < k + bs.length then some (bs.getD (k' - k) 0#8) else Memory.read m k' := by
  induction bs generalizing m k with
  | nil =>
    rw [if_neg (by simp only [List.length_nil]; omega)]
    rfl
  | cons b bs ih =>
    rw [Memory.writeRun, ih, Memory.read_write]
    simp only [List.length_cons]
    by_cases h : k' = k
    · subst h
      rw [if_neg (by omega), if_pos rfl, if_pos (by omega)]
      simp
    · by_cases h' : k + 1 ≤ k' ∧ k' < k + 1 + bs.length
      · rw [if_pos h', if_pos (by omega), show k' - k = (k' - (k + 1)) + 1 by omega, List.getD_cons_succ]
      · rw [if_neg h', if_neg h, if_neg (by omega)]

/-- A word write lists only indices of that word, and those listed before. -/
theorem Memory.mem_writeRun (bs : List Byte) (m : Memory) (k : Nat) (c : Host.Cell)
    (h : c ∈ Memory.writeRun m k bs) : (k ≤ c.1 ∧ c.1 < k + bs.length) ∨ c ∈ m := by
  induction bs generalizing m k with
  | nil => exact .inr h
  | cons b bs ih =>
    simp only [List.length_cons]
    rcases ih _ _ h with h | h
    · exact .inl (by omega)
    · rcases Memory.mem_write m k b c h with rfl | h
      · exact .inl ⟨Nat.le_refl _, by omega⟩
      · exact .inr h

/-- A run of bytes reads as a list exactly when each of its bytes is written. -/
theorem Memory.readRun_eq_some (n : Nat) (m : Memory) (k : Nat) (bs : List Byte) :
    Memory.readRun m k n = some bs ↔
      bs.length = n ∧ ∀ i < n, Memory.read m (k + i) = some (bs.getD i 0#8) := by
  induction n generalizing k bs with
  | zero =>
    simp only [Memory.readRun, Option.some.injEq]
    constructor
    · rintro rfl
      simp
    · rintro ⟨h, _⟩
      exact (List.length_eq_zero_iff.1 h).symm
  | succ n ih =>
    have shift : ∀ i, k + 1 + i = k + (i + 1) := fun i => by omega
    simp only [Memory.readRun]
    constructor
    · intro h
      split at h
      · rename_i b bs' hb hbs
        obtain rfl : b :: bs' = bs := by simpa using h
        obtain ⟨hl, hr⟩ := (ih _ _).1 hbs
        refine ⟨by simp [hl], fun i hi => ?_⟩
        cases i with
        | zero => simpa using hb
        | succ i => simpa [shift] using hr i (by omega)
      · cases h
    · rintro ⟨hl, hr⟩
      cases bs with
      | nil => simp at hl
      | cons b bs =>
        have h0 : Memory.read m k = some b := by simpa using hr 0 (by omega)
        have h1 : Memory.readRun m (k + 1) n = some bs :=
          (ih _ _).2 ⟨by simpa using hl, fun i hi => by simpa [shift] using hr (i + 1) (by omega)⟩
        rw [h0, h1]

/-- A run of bytes has no list exactly when one of its bytes is unwritten. -/
theorem Memory.readRun_eq_none (n : Nat) (m : Memory) (k : Nat) :
    Memory.readRun m k n = none ↔ ∃ i < n, Memory.read m (k + i) = none := by
  induction n generalizing k with
  | zero => simp [Memory.readRun]
  | succ n ih =>
    have shift : ∀ i, k + 1 + i = k + (i + 1) := fun i => by omega
    simp only [Memory.readRun]
    cases h0 : Memory.read m k with
    | none => simpa using ⟨0, by omega, h0⟩
    | some b =>
      cases h1 : Memory.readRun m (k + 1) n with
      | none =>
        obtain ⟨i, hi, h⟩ := (ih _).1 h1
        simpa using ⟨i + 1, by omega, shift i ▸ h⟩
      | some bs =>
        simp only [reduceCtorEq, false_iff, not_exists, not_and]
        intro i hi h
        cases i with
        | zero => simp [h0] at h
        | succ i =>
          have : Memory.readRun m (k + 1) n = none := (ih _).2 ⟨i, by omega, by rw [shift]; exact h⟩
          simp [h1] at this

/-- In a canonical memory a listed byte reads as its entry. -/
theorem Memory.read_of_mem (m : Memory) (h : Memory.wf m = true) (k : Nat) (v : Byte) :
    (k, v) ∈ m ↔ Memory.read m k = some v := by
  induction m with
  | nil => simp
  | cons c m ih =>
    obtain ⟨a, b⟩ := c
    obtain ⟨hm, ha⟩ := (Memory.wf_cons a b m).1 h
    rw [Memory.read_cons, List.mem_cons, ih hm]
    by_cases e : a = k
    · subst e
      have hn : Memory.read m a ≠ some v := fun hr => Nat.lt_irrefl _ (ha _ ((ih hm).2 hr))
      simp [hn, eq_comm]
    · have e' : k ≠ a := Ne.symm e
      simp [e, e']

/-- A byte is written exactly when the memory lists its index. -/
theorem Memory.read_isSome (m : Memory) (k : Nat) :
    (Memory.read m k).isSome = true ↔ ∃ c ∈ m, c.1 = k := by
  induction m with
  | nil => simp
  | cons c m ih =>
    obtain ⟨a, b⟩ := c
    rw [Memory.read_cons]
    by_cases e : a = k
    · simp [e]
    · simpa [e] using ih

/-- Canonical memories that read alike are equal: equal memories are equal data. -/
theorem Memory.ext_of_wf (m m' : Memory) (h : Memory.wf m = true) (h' : Memory.wf m' = true)
    (hr : ∀ k, Memory.read m k = Memory.read m' k) : m = m' := by
  induction m generalizing m' with
  | nil =>
    cases m' with
    | nil => rfl
    | cons c m' =>
      obtain ⟨a, b⟩ := c
      simpa [Memory.read_cons] using hr a
  | cons c m ih =>
    obtain ⟨a, b⟩ := c
    cases m' with
    | nil => simpa [Memory.read_cons] using hr a
    | cons c' m' =>
      obtain ⟨a', b'⟩ := c'
      obtain ⟨hm, ha⟩ := (Memory.wf_cons a b m).1 h
      obtain ⟨hm', ha'⟩ := (Memory.wf_cons a' b' m').1 h'
      have low : ∀ (n : Memory) (x : Nat), (∀ c ∈ n, x < c.1) → ∀ y ≤ x, Memory.read n y = none := by
        intro n x hx y hy
        cases hn : Memory.read n y with
        | none => rfl
        | some v =>
          obtain ⟨c, hc, e⟩ := (Memory.read_isSome n y).1 (by simp [hn])
          exact absurd (hx c hc) (by omega)
      have hab : a = a' := by
        rcases Nat.lt_trichotomy a a' with hlt | rfl | hlt
        · have := hr a
          rw [Memory.read_cons, Memory.read_cons, if_pos rfl, if_neg (by omega), low m' a' ha' a (by omega)] at this
          cases this
        · rfl
        · have := hr a'
          rw [Memory.read_cons, Memory.read_cons, if_pos rfl, if_neg (by omega), low m a ha a' (by omega)] at this
          cases this
      subst hab
      have hb : b = b' := by simpa [Memory.read_cons] using hr a
      subst hb
      rw [ih m' hm hm' fun k => ?_]
      by_cases e : a = k
      · subst e
        rw [low m a ha a (Nat.le_refl _), low m' a ha' a (Nat.le_refl _)]
      · simpa [Memory.read_cons, e] using hr k

end Sys2Proof.Machine
end

