-- ==== Sys2Proof/Laws/State.lean ====
section
/-! SUPPORT. One lemma per field per named update of State: what the update does to that field. -/

namespace Sys2Proof.Machine

section setIn
variable (s : State) (v : Word)
@[simp] theorem State.setIn_config : (s.setIn v).config = s.config := rfl
@[simp] theorem State.setIn_inReg : (s.setIn v).inReg = v := rfl
@[simp] theorem State.setIn_out : (s.setIn v).out = s.out := rfl
@[simp] theorem State.setIn_cnt : (s.setIn v).cnt = s.cnt := rfl
@[simp] theorem State.setIn_elen : (s.setIn v).elen = s.elen := rfl
@[simp] theorem State.setIn_offset : (s.setIn v).offset = s.offset := rfl
@[simp] theorem State.setIn_ilen : (s.setIn v).ilen = s.ilen := rfl
@[simp] theorem State.setIn_status : (s.setIn v).status = s.status := rfl
@[simp] theorem State.setIn_ebuf : (s.setIn v).ebuf = s.ebuf := rfl
@[simp] theorem State.setIn_ibuf : (s.setIn v).ibuf = s.ibuf := rfl
@[simp] theorem State.setIn_hostQueue : (s.setIn v).hostQueue = s.hostQueue := rfl
@[simp] theorem State.setIn_hostReads : (s.setIn v).hostReads = s.hostReads := rfl
end setIn

section setOut
variable (s : State) (v : Word)
@[simp] theorem State.setOut_config : (s.setOut v).config = s.config := rfl
@[simp] theorem State.setOut_inReg : (s.setOut v).inReg = s.inReg := rfl
@[simp] theorem State.setOut_out : (s.setOut v).out = v := rfl
@[simp] theorem State.setOut_cnt : (s.setOut v).cnt = s.cnt := rfl
@[simp] theorem State.setOut_elen : (s.setOut v).elen = s.elen := rfl
@[simp] theorem State.setOut_offset : (s.setOut v).offset = s.offset := rfl
@[simp] theorem State.setOut_ilen : (s.setOut v).ilen = s.ilen := rfl
@[simp] theorem State.setOut_status : (s.setOut v).status = s.status := rfl
@[simp] theorem State.setOut_ebuf : (s.setOut v).ebuf = s.ebuf := rfl
@[simp] theorem State.setOut_ibuf : (s.setOut v).ibuf = s.ibuf := rfl
@[simp] theorem State.setOut_hostQueue : (s.setOut v).hostQueue = s.hostQueue := rfl
@[simp] theorem State.setOut_hostReads : (s.setOut v).hostReads = s.hostReads := rfl
end setOut

section setCnt
variable (s : State) (v : BitVec 4)
@[simp] theorem State.setCnt_config : (s.setCnt v).config = s.config := rfl
@[simp] theorem State.setCnt_inReg : (s.setCnt v).inReg = s.inReg := rfl
@[simp] theorem State.setCnt_out : (s.setCnt v).out = s.out := rfl
@[simp] theorem State.setCnt_cnt : (s.setCnt v).cnt = v := rfl
@[simp] theorem State.setCnt_elen : (s.setCnt v).elen = s.elen := rfl
@[simp] theorem State.setCnt_offset : (s.setCnt v).offset = s.offset := rfl
@[simp] theorem State.setCnt_ilen : (s.setCnt v).ilen = s.ilen := rfl
@[simp] theorem State.setCnt_status : (s.setCnt v).status = s.status := rfl
@[simp] theorem State.setCnt_ebuf : (s.setCnt v).ebuf = s.ebuf := rfl
@[simp] theorem State.setCnt_ibuf : (s.setCnt v).ibuf = s.ibuf := rfl
@[simp] theorem State.setCnt_hostQueue : (s.setCnt v).hostQueue = s.hostQueue := rfl
@[simp] theorem State.setCnt_hostReads : (s.setCnt v).hostReads = s.hostReads := rfl
end setCnt

section setElen
variable (s : State) (v : BitVec 4)
@[simp] theorem State.setElen_config : (s.setElen v).config = s.config := rfl
@[simp] theorem State.setElen_inReg : (s.setElen v).inReg = s.inReg := rfl
@[simp] theorem State.setElen_out : (s.setElen v).out = s.out := rfl
@[simp] theorem State.setElen_cnt : (s.setElen v).cnt = s.cnt := rfl
@[simp] theorem State.setElen_elen : (s.setElen v).elen = v := rfl
@[simp] theorem State.setElen_offset : (s.setElen v).offset = s.offset := rfl
@[simp] theorem State.setElen_ilen : (s.setElen v).ilen = s.ilen := rfl
@[simp] theorem State.setElen_status : (s.setElen v).status = s.status := rfl
@[simp] theorem State.setElen_ebuf : (s.setElen v).ebuf = s.ebuf := rfl
@[simp] theorem State.setElen_ibuf : (s.setElen v).ibuf = s.ibuf := rfl
@[simp] theorem State.setElen_hostQueue : (s.setElen v).hostQueue = s.hostQueue := rfl
@[simp] theorem State.setElen_hostReads : (s.setElen v).hostReads = s.hostReads := rfl
end setElen

section setOffset
variable (s : State) (v : BitVec 16)
@[simp] theorem State.setOffset_config : (s.setOffset v).config = s.config := rfl
@[simp] theorem State.setOffset_inReg : (s.setOffset v).inReg = s.inReg := rfl
@[simp] theorem State.setOffset_out : (s.setOffset v).out = s.out := rfl
@[simp] theorem State.setOffset_cnt : (s.setOffset v).cnt = s.cnt := rfl
@[simp] theorem State.setOffset_elen : (s.setOffset v).elen = s.elen := rfl
@[simp] theorem State.setOffset_offset : (s.setOffset v).offset = v := rfl
@[simp] theorem State.setOffset_ilen : (s.setOffset v).ilen = s.ilen := rfl
@[simp] theorem State.setOffset_status : (s.setOffset v).status = s.status := rfl
@[simp] theorem State.setOffset_ebuf : (s.setOffset v).ebuf = s.ebuf := rfl
@[simp] theorem State.setOffset_ibuf : (s.setOffset v).ibuf = s.ibuf := rfl
@[simp] theorem State.setOffset_hostQueue : (s.setOffset v).hostQueue = s.hostQueue := rfl
@[simp] theorem State.setOffset_hostReads : (s.setOffset v).hostReads = s.hostReads := rfl
end setOffset

section setIlen
variable (s : State) (v : BitVec 16)
@[simp] theorem State.setIlen_config : (s.setIlen v).config = s.config := rfl
@[simp] theorem State.setIlen_inReg : (s.setIlen v).inReg = s.inReg := rfl
@[simp] theorem State.setIlen_out : (s.setIlen v).out = s.out := rfl
@[simp] theorem State.setIlen_cnt : (s.setIlen v).cnt = s.cnt := rfl
@[simp] theorem State.setIlen_elen : (s.setIlen v).elen = s.elen := rfl
@[simp] theorem State.setIlen_offset : (s.setIlen v).offset = s.offset := rfl
@[simp] theorem State.setIlen_ilen : (s.setIlen v).ilen = v := rfl
@[simp] theorem State.setIlen_status : (s.setIlen v).status = s.status := rfl
@[simp] theorem State.setIlen_ebuf : (s.setIlen v).ebuf = s.ebuf := rfl
@[simp] theorem State.setIlen_ibuf : (s.setIlen v).ibuf = s.ibuf := rfl
@[simp] theorem State.setIlen_hostQueue : (s.setIlen v).hostQueue = s.hostQueue := rfl
@[simp] theorem State.setIlen_hostReads : (s.setIlen v).hostReads = s.hostReads := rfl
end setIlen

section setStatus
variable (s : State) (v : Status)
@[simp] theorem State.setStatus_config : (s.setStatus v).config = s.config := rfl
@[simp] theorem State.setStatus_inReg : (s.setStatus v).inReg = s.inReg := rfl
@[simp] theorem State.setStatus_out : (s.setStatus v).out = s.out := rfl
@[simp] theorem State.setStatus_cnt : (s.setStatus v).cnt = s.cnt := rfl
@[simp] theorem State.setStatus_elen : (s.setStatus v).elen = s.elen := rfl
@[simp] theorem State.setStatus_offset : (s.setStatus v).offset = s.offset := rfl
@[simp] theorem State.setStatus_ilen : (s.setStatus v).ilen = s.ilen := rfl
@[simp] theorem State.setStatus_status : (s.setStatus v).status = v := rfl
@[simp] theorem State.setStatus_ebuf : (s.setStatus v).ebuf = s.ebuf := rfl
@[simp] theorem State.setStatus_ibuf : (s.setStatus v).ibuf = s.ibuf := rfl
@[simp] theorem State.setStatus_hostQueue : (s.setStatus v).hostQueue = s.hostQueue := rfl
@[simp] theorem State.setStatus_hostReads : (s.setStatus v).hostReads = s.hostReads := rfl
end setStatus

section setEbuf
variable (s : State) (v : Vector Byte 10)
@[simp] theorem State.setEbuf_config : (s.setEbuf v).config = s.config := rfl
@[simp] theorem State.setEbuf_inReg : (s.setEbuf v).inReg = s.inReg := rfl
@[simp] theorem State.setEbuf_out : (s.setEbuf v).out = s.out := rfl
@[simp] theorem State.setEbuf_cnt : (s.setEbuf v).cnt = s.cnt := rfl
@[simp] theorem State.setEbuf_elen : (s.setEbuf v).elen = s.elen := rfl
@[simp] theorem State.setEbuf_offset : (s.setEbuf v).offset = s.offset := rfl
@[simp] theorem State.setEbuf_ilen : (s.setEbuf v).ilen = s.ilen := rfl
@[simp] theorem State.setEbuf_status : (s.setEbuf v).status = s.status := rfl
@[simp] theorem State.setEbuf_ebuf : (s.setEbuf v).ebuf = v := rfl
@[simp] theorem State.setEbuf_ibuf : (s.setEbuf v).ibuf = s.ibuf := rfl
@[simp] theorem State.setEbuf_hostQueue : (s.setEbuf v).hostQueue = s.hostQueue := rfl
@[simp] theorem State.setEbuf_hostReads : (s.setEbuf v).hostReads = s.hostReads := rfl
end setEbuf

section setIbuf
variable (s : State) (v : Memory)
@[simp] theorem State.setIbuf_config : (s.setIbuf v).config = s.config := rfl
@[simp] theorem State.setIbuf_inReg : (s.setIbuf v).inReg = s.inReg := rfl
@[simp] theorem State.setIbuf_out : (s.setIbuf v).out = s.out := rfl
@[simp] theorem State.setIbuf_cnt : (s.setIbuf v).cnt = s.cnt := rfl
@[simp] theorem State.setIbuf_elen : (s.setIbuf v).elen = s.elen := rfl
@[simp] theorem State.setIbuf_offset : (s.setIbuf v).offset = s.offset := rfl
@[simp] theorem State.setIbuf_ilen : (s.setIbuf v).ilen = s.ilen := rfl
@[simp] theorem State.setIbuf_status : (s.setIbuf v).status = s.status := rfl
@[simp] theorem State.setIbuf_ebuf : (s.setIbuf v).ebuf = s.ebuf := rfl
@[simp] theorem State.setIbuf_ibuf : (s.setIbuf v).ibuf = v := rfl
@[simp] theorem State.setIbuf_hostQueue : (s.setIbuf v).hostQueue = s.hostQueue := rfl
@[simp] theorem State.setIbuf_hostReads : (s.setIbuf v).hostReads = s.hostReads := rfl
end setIbuf

section setQueue
variable (s : State) (v : List HostEvent)
@[simp] theorem State.setQueue_config : (s.setQueue v).config = s.config := rfl
@[simp] theorem State.setQueue_inReg : (s.setQueue v).inReg = s.inReg := rfl
@[simp] theorem State.setQueue_out : (s.setQueue v).out = s.out := rfl
@[simp] theorem State.setQueue_cnt : (s.setQueue v).cnt = s.cnt := rfl
@[simp] theorem State.setQueue_elen : (s.setQueue v).elen = s.elen := rfl
@[simp] theorem State.setQueue_offset : (s.setQueue v).offset = s.offset := rfl
@[simp] theorem State.setQueue_ilen : (s.setQueue v).ilen = s.ilen := rfl
@[simp] theorem State.setQueue_status : (s.setQueue v).status = s.status := rfl
@[simp] theorem State.setQueue_ebuf : (s.setQueue v).ebuf = s.ebuf := rfl
@[simp] theorem State.setQueue_ibuf : (s.setQueue v).ibuf = s.ibuf := rfl
@[simp] theorem State.setQueue_hostQueue : (s.setQueue v).hostQueue = v := rfl
@[simp] theorem State.setQueue_hostReads : (s.setQueue v).hostReads = s.hostReads := rfl
end setQueue

section addRead
variable (s : State) (v : Word)
@[simp] theorem State.addRead_config : (s.addRead v).config = s.config := rfl
@[simp] theorem State.addRead_inReg : (s.addRead v).inReg = s.inReg := rfl
@[simp] theorem State.addRead_out : (s.addRead v).out = s.out := rfl
@[simp] theorem State.addRead_cnt : (s.addRead v).cnt = s.cnt := rfl
@[simp] theorem State.addRead_elen : (s.addRead v).elen = s.elen := rfl
@[simp] theorem State.addRead_offset : (s.addRead v).offset = s.offset := rfl
@[simp] theorem State.addRead_ilen : (s.addRead v).ilen = s.ilen := rfl
@[simp] theorem State.addRead_status : (s.addRead v).status = s.status := rfl
@[simp] theorem State.addRead_ebuf : (s.addRead v).ebuf = s.ebuf := rfl
@[simp] theorem State.addRead_ibuf : (s.addRead v).ibuf = s.ibuf := rfl
@[simp] theorem State.addRead_hostQueue : (s.addRead v).hostQueue = s.hostQueue := rfl
@[simp] theorem State.addRead_hostReads : (s.addRead v).hostReads = s.hostReads ++ [v] := rfl
end addRead

end Sys2Proof.Machine
end

