-- ==== Sys2Proof/Laws/Ops.lean ====
section
/-! SUPPORT. What the shared operations do, field by field, and what a command can do: `exec_cases` says once which
next states `exec` answers. -/

namespace Sys2Proof.Machine

/-! ### STATUS -/

@[simp] theorem Status.succeeded_dstate (st : Status) : st.succeeded.dstate = st.dstate := rfl
@[simp] theorem Status.succeeded_err (st : Status) : st.succeeded.err = 0#4 := rfl
@[simp] theorem Status.succeeded_sticky (st : Status) : st.succeeded.sticky = st.sticky := rfl
@[simp] theorem Status.terminated_dstate (st : Status) : st.terminated.dstate = 1#2 := rfl
@[simp] theorem Status.terminated_err (st : Status) : st.terminated.err = 0#4 := rfl
@[simp] theorem Status.terminated_sticky (st : Status) : st.terminated.sticky = st.sticky := rfl
@[simp] theorem Status.raised_err (e : ErrorKind) (st : Status) : (st.raised e).err = e.code := rfl
@[simp] theorem Status.raised_sticky (e : ErrorKind) (st : Status) : (st.raised e).sticky = true := rfl
@[simp] theorem Status.raised_dstate (e : ErrorKind) (st : Status) :
    (st.raised e).dstate = if e.isDecodeError then 2#2 else st.dstate := rfl
@[simp] theorem Status.cleared_dstate : Status.cleared.dstate = 0#2 := rfl
@[simp] theorem Status.cleared_err : Status.cleared.err = 0#4 := rfl
@[simp] theorem Status.cleared_sticky : Status.cleared.sticky = false := rfl
@[simp] theorem Status.reset_dstate : Status.reset.dstate = 0#2 := rfl
@[simp] theorem Status.reset_err : Status.reset.err = 0#4 := rfl
@[simp] theorem Status.reset_sticky : Status.reset.sticky = false := rfl

/-! ### raise -/

@[simp] theorem raise_config (e : ErrorKind) (s : State) : (raise e s).config = s.config := by cases e <;> rfl
@[simp] theorem raise_inReg (e : ErrorKind) (s : State) : (raise e s).inReg = s.inReg := by cases e <;> rfl
@[simp] theorem raise_out (e : ErrorKind) (s : State) : (raise e s).out = s.out := by cases e <;> rfl
@[simp] theorem raise_cnt (e : ErrorKind) (s : State) :
    (raise e s).cnt = if e.isDecodeError then 0#4 else s.cnt := by cases e <;> rfl
@[simp] theorem raise_elen (e : ErrorKind) (s : State) : (raise e s).elen = s.elen := by cases e <;> rfl
@[simp] theorem raise_offset (e : ErrorKind) (s : State) : (raise e s).offset = s.offset := by cases e <;> rfl
@[simp] theorem raise_ilen (e : ErrorKind) (s : State) : (raise e s).ilen = s.ilen := by cases e <;> rfl
@[simp] theorem raise_status (e : ErrorKind) (s : State) : (raise e s).status = s.status.raised e := by
  cases e <;> rfl
@[simp] theorem raise_ebuf (e : ErrorKind) (s : State) : (raise e s).ebuf = s.ebuf := by cases e <;> rfl
@[simp] theorem raise_ibuf (e : ErrorKind) (s : State) : (raise e s).ibuf = s.ibuf := by cases e <;> rfl
@[simp] theorem raise_hostQueue (e : ErrorKind) (s : State) : (raise e s).hostQueue = s.hostQueue := by
  cases e <;> rfl
@[simp] theorem raise_hostReads (e : ErrorKind) (s : State) : (raise e s).hostReads = s.hostReads := by
  cases e <;> rfl

/-! ### Clamp and buffers -/

/-- The clamp never stores more than IBUF_SIZE, and stores the value itself up to there. -/
theorem clampToIbuf_toNat (c : Config) (d : Word) : (clampToIbuf c d).toNat = min d.toNat c.ibufSize := by
  have := c.atMost
  rw [clampToIbuf, BitVec.toNat_ofNat, Nat.mod_eq_of_lt (by omega)]

/-- EBUF byte `k` is byte `k` of what was encoded, or zero past its end. -/
theorem ebufOf_getElem (bs : List Byte) (k : Fin 10) : (ebufOf bs)[k] = bs.getD k.val 0#8 := by
  fin_cases k <;> rfl

/-- A word is eight bytes. -/
@[simp] theorem unpackWord_length (d : Word) : (unpackWord d).length = 8 := rfl

theorem unpackWord_getD (d : Word) (i : Nat) (h : i < 8) : (unpackWord d).getD i 0#8 = byteOf d i := by
  interval_cases i <;> rfl

/-- A word write stores byte `i` of the word at index `8j+i` and leaves every other byte. -/
theorem Memory.read_writeWord (m : Memory) (j k : Nat) (d : Word) :
    Memory.read (Memory.writeWord m j d) k =
      if 8 * j ≤ k ∧ k < 8 * j + 8 then some (byteOf d (k - 8 * j)) else Memory.read m k := by
  rw [Memory.writeWord, Memory.read_writeRun, unpackWord_length]
  split
  · rw [unpackWord_getD _ _ (by omega)]
  · rfl

/-! ### Commands -/

/-- Everything a decode command can do: record what it decoded, raise what the decode reported, or stop on an
unwritten byte. -/
theorem decodeCommand_cases (onOk : Word → Nat → State → State) (s : State) :
    (∃ v c, varintDecode s.ibuf (decodeStart s) (decodeEnd s) = .ok v c ∧
      decodeCommand onOk s = .next (onOk v c s)) ∨
    (∃ e, varintDecode s.ibuf (decodeStart s) (decodeEnd s) = .err e ∧
      decodeCommand onOk s = .next (raise e s)) ∨
    (∃ k, varintDecode s.ibuf (decodeStart s) (decodeEnd s) = .unwritten k ∧
      decodeCommand onOk s = .fault (.decodeReadsUnwritten k)) := by
  unfold decodeCommand
  cases varintDecode s.ibuf (decodeStart s) (decodeEnd s) with
  | ok v c => exact .inl ⟨v, c, rfl, rfl⟩
  | err e => exact .inr (.inl ⟨e, rfl, rfl⟩)
  | unwritten k => exact .inr (.inr ⟨k, rfl, rfl⟩)

/-- A decode consumes at most ten bytes, at least one, none of them at or above the buffer's end. -/
theorem decodeLoop_ok_bounds (m : Memory) (p e : Nat) (left i : Nat) (acc v : Word) (c : Nat)
    (h : decodeLoop m p e left i acc = .ok v c) : i < c ∧ c ≤ i + left ∧ p + c ≤ e := by
  induction left generalizing i acc with
  | zero => cases h
  | succ left ih =>
    rw [decodeLoop] at h
    split at h
    · cases h
    · split at h
      · cases h
      · split at h
        · cases h
        · simp only at h
          split at h
          · have := ih (i + 1) _ h
            omega
          · cases h
            omega

/-- A decode reports no error kind but its two. -/
theorem decodeLoop_err_kind (m : Memory) (p e : Nat) (left i : Nat) (acc : Word) (k : ErrorKind)
    (h : decodeLoop m p e left i acc = .err k) : k.isDecodeError = true := by
  induction left generalizing i acc with
  | zero => cases h; rfl
  | succ left ih =>
    rw [decodeLoop] at h
    split at h
    · cases h; rfl
    · split at h
      · cases h
      · split at h
        · cases h; rfl
        · simp only at h
          split at h
          · exact ih (i + 1) _ h
          · cases h

/-- A decode that stops on an unwritten byte stops at an index from its start up, below the buffer's end. -/
theorem decodeLoop_unwritten (m : Memory) (p e : Nat) (left i : Nat) (acc : Word) (k : Nat)
    (h : decodeLoop m p e left i acc = .unwritten k) : p + i ≤ k ∧ k < e ∧ Memory.read m k = none := by
  induction left generalizing i acc with
  | zero => cases h
  | succ left ih =>
    rw [decodeLoop] at h
    split at h
    · cases h
    · split at h
      · rename_i hr
        cases h
        exact ⟨Nat.le_refl _, by omega, hr⟩
      · split at h
        · cases h
        · simp only at h
          split at h
          · obtain ⟨h1, h2⟩ := ih (i + 1) _ h
            exact ⟨by omega, h2⟩
          · cases h

/-- Everything `exec` can do when it answers a next state. -/
theorem exec_cases (i : Instr) (s t : State) (h : exec i s = .next t) :
    (i = .nop ∧ t = s) ∨
    (i = .enc ∧ t = succeed ((s.setEbuf (ebufOf (varintEncode s.inReg))).setElen
      (BitVec.ofNat 4 (varintEncode s.inReg).length))) ∨
    (i = .dec ∧ ∃ v c, varintDecode s.ibuf s.offset.toNat s.ilen.toNat = .ok v c ∧ t = recordDecoded v c s) ∨
    (i = .deca ∧ ∃ v c, varintDecode s.ibuf s.offset.toNat s.ilen.toNat = .ok v c ∧
      t = advanceOffset c (recordDecoded v c s)) ∨
    ((i = .dec ∨ i = .deca) ∧ ∃ e, varintDecode s.ibuf s.offset.toNat s.ilen.toNat = .err e ∧ t = raise e s) ∨
    ((i = .zze32 ∨ i = .zze64 ∨ i = .zzd32 ∨ i = .zzd64) ∧ ∃ v, t = succeed (s.setOut v)) ∨
    (i = .clrs ∧ t = s.setStatus Status.cleared) ∨
    (i = .srst ∧ t = { powerOnReset s with ibuf := s.ibuf }) := by
  cases i with
  | nop => cases h; exact .inl ⟨rfl, rfl⟩
  | enc => cases h; exact .inr (.inl ⟨rfl, rfl⟩)
  | dec =>
    rcases decodeCommand_cases recordDecoded s with ⟨v, c, hd, he⟩ | ⟨e, hd, he⟩ | ⟨k, hd, he⟩
    · cases (show Host.Outcome.next (recordDecoded v c s) = .next t from he.symm.trans h)
      exact .inr (.inr (.inl ⟨rfl, v, c, hd, rfl⟩))
    · cases (show Host.Outcome.next (raise e s) = .next t from he.symm.trans h)
      exact .inr (.inr (.inr (.inr (.inl ⟨.inl rfl, e, hd, rfl⟩))))
    · cases (show Host.Outcome.fault _ = Host.Outcome.next t from he.symm.trans h)
  | deca =>
    rcases decodeCommand_cases (fun v c s => advanceOffset c (recordDecoded v c s)) s with
      ⟨v, c, hd, he⟩ | ⟨e, hd, he⟩ | ⟨k, hd, he⟩
    · cases (show Host.Outcome.next (advanceOffset c (recordDecoded v c s)) = .next t from he.symm.trans h)
      exact .inr (.inr (.inr (.inl ⟨rfl, v, c, hd, rfl⟩)))
    · cases (show Host.Outcome.next (raise e s) = .next t from he.symm.trans h)
      exact .inr (.inr (.inr (.inr (.inl ⟨.inr rfl, e, hd, rfl⟩))))
    · cases (show Host.Outcome.fault _ = Host.Outcome.next t from he.symm.trans h)
  | zze32 => cases h; exact .inr (.inr (.inr (.inr (.inr (.inl ⟨.inl rfl, _, rfl⟩)))))
  | zze64 => cases h; exact .inr (.inr (.inr (.inr (.inr (.inl ⟨.inr (.inl rfl), _, rfl⟩)))))
  | zzd32 => cases h; exact .inr (.inr (.inr (.inr (.inr (.inl ⟨.inr (.inr (.inl rfl)), _, rfl⟩)))))
  | zzd64 => cases h; exact .inr (.inr (.inr (.inr (.inr (.inl ⟨.inr (.inr (.inr rfl)), _, rfl⟩)))))
  | clrs => cases h; exact .inr (.inr (.inr (.inr (.inr (.inr (.inl ⟨rfl, rfl⟩))))))
  | srst => cases h; exact .inr (.inr (.inr (.inr (.inr (.inr (.inr ⟨rfl, rfl⟩))))))

end Sys2Proof.Machine
end

