-- ==== Sys2Proof/Laws/Bus.lean ====
section
/-! SUPPORT. What the bus and a step can do: `busTarget_ibuf` for the IBUF window, `busWrite_cases` and `step_cases`
say once which next states a write and a step answer. -/

namespace Sys2Proof.Machine

/-- An IBUF address of the map names its word. -/
theorem busTarget_ibuf (c : Config) (j : Nat) (h : j < c.ibufWords) :
    busTarget c (ibufAddrOf j) = .ibufWord j := by
  have hw : c.ibufWords ≤ 4096 := by
    have := c.atMost
    unfold Config.ibufWords
    omega
  have ht : (ibufAddrOf j).toNat = ibufBase + j := by
    rw [ibufAddrOf, BitVec.toNat_ofNat, Nat.mod_eq_of_lt (by unfold ibufBase; omega)]
  rw [busTarget, ht, if_pos ⟨Nat.le_add_right _ _, Nat.add_lt_add_left h _⟩, Nat.add_sub_cancel_left]

/-- Below the IBUF window and above it the map is that of the registers. -/
theorem busTarget_register (c : Config) (a : BusAddr)
    (h : a.toNat < ibufBase ∨ ibufBase + c.ibufWords ≤ a.toNat) : busTarget c a = registerTarget a := by
  rw [busTarget, if_neg (by omega)]

/-- No register address names an IBUF word. -/
theorem registerTarget_ne_ibufWord (a : BusAddr) (j : Nat) : registerTarget a ≠ .ibufWord j := by
  unfold registerTarget
  repeat' split
  all_goals simp

/-- Only its own address names CMD. -/
theorem registerTarget_cmd (a : BusAddr) (h : registerTarget a = .cmd) : a = 0x001#13 := by
  by_contra hne
  revert h
  unfold registerTarget
  rw [if_neg hne]
  repeat' split
  all_goals simp

/-- Only IBUF addresses name an IBUF word, and the word they name is in IBUF. -/
theorem busTarget_ibufWord (c : Config) (a : BusAddr) (j : Nat) (h : busTarget c a = .ibufWord j) :
    a.toNat = ibufBase + j ∧ j < c.ibufWords := by
  unfold busTarget at h
  split at h
  · rename_i hr
    obtain ⟨h1, h2⟩ := hr
    have : a.toNat - ibufBase = j := by injection h
    omega
  · exact absurd h (registerTarget_ne_ibufWord a j)

theorem busTarget_cmd (c : Config) (a : BusAddr) (h : busTarget c a = .cmd) : a = 0x001#13 := by
  unfold busTarget at h
  split at h
  · cases h
  · exact registerTarget_cmd a h

/-- Everything a bus write can do when it answers a next state. -/
theorem busWrite_cases (a : BusAddr) (d : Word) (s t : State) (h : busWrite a d s = .next t) :
    (a = 0x001#13 ∧ commandWrite d s = .next t) ∨
    t = s.setIn d ∨ t = s.setOffset (clampToIbuf s.config d) ∨ t = s.setIlen (clampToIbuf s.config d) ∨
    (∃ j, a.toNat = ibufBase + j ∧ j < s.config.ibufWords ∧ t = s.setIbuf (Memory.writeWord s.ibuf j d)) ∨
    t = s := by
  unfold busWrite at h
  cases hb : busTarget s.config a with
  | cmd =>
    simp only [hb] at h
    exact .inl ⟨busTarget_cmd _ _ hb, h⟩
  | inReg => simp only [hb] at h; cases h; exact .inr (.inl rfl)
  | offset => simp only [hb] at h; cases h; exact .inr (.inr (.inl rfl))
  | ilen => simp only [hb] at h; cases h; exact .inr (.inr (.inr (.inl rfl)))
  | ibufWord j =>
    simp only [hb] at h
    cases h
    obtain ⟨h1, h2⟩ := busTarget_ibufWord _ _ _ hb
    exact .inr (.inr (.inr (.inr (.inl ⟨j, h1, h2, rfl⟩))))
  | id => simp only [hb] at h; cases h; simp
  | status => simp only [hb] at h; cases h; simp
  | out => simp only [hb] at h; cases h; simp
  | cnt => simp only [hb] at h; cases h; simp
  | elen => simp only [hb] at h; cases h; simp
  | ebuf0 => simp only [hb] at h; cases h; simp
  | ebuf1 => simp only [hb] at h; cases h; simp
  | unmapped => simp only [hb] at h; cases h; simp

/-- Everything a command write can do when it answers a next state: run the command its word decodes to, or raise
IllegalCommand. -/
theorem commandWrite_cases (d : Word) (s t : State) (h : commandWrite d s = .next t) :
    (∃ i, decode d = .ok i ∧ exec i s = .next t) ∨
    (∃ e, decode d = .error e ∧ t = raise .illegalCommand s) := by
  unfold commandWrite at h
  cases hd : decode d with
  | ok i => simp only [hd] at h; exact .inl ⟨i, rfl, h⟩
  | error e => simp only [hd] at h; cases h; exact .inr ⟨e, rfl, rfl⟩

/-- Everything a step can do when it answers a next state: nothing, hand a word to the host, write, or power-on
reset. -/
theorem step_cases (s t : State) (h : step s = .next t) :
    (s.hostQueue = [] ∧ t = s) ∨
    (∃ a rest v, s.hostQueue = .access (.read a) :: rest ∧ busRead s a = .ok v ∧
      t = (s.setQueue rest).addRead v) ∨
    (∃ a d rest, s.hostQueue = .access (.write a d) :: rest ∧ busWrite a d (s.setQueue rest) = .next t) ∨
    (∃ rest, s.hostQueue = .powerOnReset :: rest ∧ t = powerOnReset (s.setQueue rest)) := by
  unfold step hostStep at h
  cases hq : s.hostQueue with
  | nil => simp only [hq] at h; cases h; exact .inl ⟨rfl, rfl⟩
  | cons e rest =>
    simp only [hq, performEvent] at h
    cases e with
    | powerOnReset =>
      cases h
      exact .inr (.inr (.inr ⟨rest, rfl, rfl⟩))
    | access b =>
      cases b with
      | write a d => exact .inr (.inr (.inl ⟨a, d, rest, rfl, h⟩))
      | read a =>
        simp only [performAccess] at h
        have hs : busRead (s.setQueue rest) a = busRead s a := rfl
        rw [hs] at h
        cases hr : busRead s a with
        | error f => simp only [hr] at h; cases h
        | ok v =>
          simp only [hr] at h
          cases h
          exact .inr (.inl ⟨a, rest, v, rfl, hr, rfl⟩)

end Sys2Proof.Machine
end

