-- ==== Sys2Proof/Laws/HostProgram.lean ====
section
/-! SUPPORT. What the host's procedures are made of: accesses in sequence, a register read, a command line, and what
`load` leaves in the block (`runLines_load`). -/

namespace Sys2Proof.Machine

/-! ### Accesses in sequence -/

@[simp] theorem andThen_next {σ τ : Type} (s : σ) (f : σ → Host.Outcome τ Fault Refusal) :
    andThen (.next s) f = f s := rfl

theorem runAccesses_append (p q : List BusAccess) (s : State) :
    runAccesses (p ++ q) s = andThen (runAccesses p s) (runAccesses q) := by
  induction p generalizing s with
  | nil => rfl
  | cons b p ih =>
    simp only [List.cons_append, runAccesses]
    cases performAccess b s <;> simp [andThen, ih]

theorem runLines_append (p q : List AsmLine) (s : State) :
    runLines (p ++ q) s = andThen (runLines p s) (runLines q) := by
  unfold runLines
  rw [List.map_append, runAccesses_append]

/-! ### Register lines -/

/-- A register's address names that register in every build. -/
theorem busTarget_regName (c : Config) (r : RegName) : busTarget c r.addr = registerTarget r.addr :=
  busTarget_register c _ (.inl (by cases r <;> decide))

theorem readReg_offset (s : State) :
    readReg .offset s = .next (s.offset.setWidth 64, s.addRead (s.offset.setWidth 64)) := by
  have ht : busTarget s.config RegName.offset.addr = .offset := busTarget_regName _ _
  simp only [readReg, busRead, ht]

theorem readReg_status (s : State) : readReg .status s = .next (s.status.word, s.addRead s.status.word) := by
  have ht : busTarget s.config RegName.status.addr = .status := busTarget_regName _ _
  simp only [readReg, busRead, ht]

theorem readReg_out (s : State) : readReg .out s = .next (s.out, s.addRead s.out) := by
  have ht : busTarget s.config RegName.out.addr = .out := busTarget_regName _ _
  simp only [readReg, busRead, ht]

theorem readReg_elen (s : State) :
    readReg .elen s = .next (s.elen.setWidth 64, s.addRead (s.elen.setWidth 64)) := by
  have ht : busTarget s.config RegName.elen.addr = .elen := busTarget_regName _ _
  simp only [readReg, busRead, ht]

/-- ERR in the word a read of STATUS returns. -/
theorem Status.word_err (st : Status) : st.word.extractLsb' 4 4 = st.err := by
  obtain ⟨d, e, k⟩ := st
  show BitVec.extractLsb' 4 4 ((BitVec.ofBool k ++ e ++ 0#2 ++ d).setWidth 64) = e
  revert d e k
  decide

/-- `cmd M` runs the command M. -/
theorem runLines_cmd (i : Instr) (s : State) : runLines [.cmd i] s = exec i s := by
  have hd : decode (encode i) = .ok i := by cases i <;> rfl
  have ht : busTarget s.config RegName.cmd.addr = .cmd := busTarget_regName _ _
  simp only [runLines, List.map_cons, List.map_nil, AsmLine.access, runAccesses, performAccess, busWrite, ht,
    commandWrite, hd]
  cases exec i s <;> rfl

/-! ### `load` -/

/-- Byte `i` of a packed word is byte `i` of the list, or zero past its end. -/
theorem byteOf_packWord (bs : List Byte) (i : Nat) (h : i < 8) : byteOf (packWord bs) i = bs.getD i 0#8 := by
  induction bs generalizing i with
  | nil => simp [packWord, byteOf]
  | cons b bs ih =>
    apply BitVec.eq_of_getLsbD_eq
    intro k hk
    cases i with
    | zero =>
      simp [packWord, byteOf, hk]
      intro h
      omega
    | succ i =>
      have hi := congrArg (fun x => x.getLsbD k) (ih i (by omega))
      simp only [byteOf, BitVec.getLsbD_extractLsb', hk] at hi
      rw [List.getD_cons_succ, ← hi]
      simp [packWord, byteOf, hk]
      rw [show 8 * (i + 1) + k - 8 = 8 * i + k by omega]
      simp [show 8 * (i + 1) + k < 64 by omega, BitVec.getLsbD_of_ge b (8 * (i + 1) + k) (by omega)]
      omega

/-- `wr IBUF+j, d` stores word `j`. -/
theorem performAccess_wrIbuf (s : State) (j : Nat) (d : Word) (h : j < s.config.ibufWords) :
    performAccess (AsmLine.access (.wrIbuf j d.toNat)) s = .next (s.setIbuf (Memory.writeWord s.ibuf j d)) := by
  simp only [AsmLine.access, performAccess, busWrite, busTarget_ibuf _ _ h, BitVec.ofInt_natCast, BitVec.ofNat_toNat,
    BitVec.setWidth_eq]

/-- Fewer than eight bytes, and not none, fill one word. -/
theorem packWords_short (bs : List Byte) (h0 : 0 < bs.length) (h8 : bs.length < 8) :
    packWords bs = [packWord bs] := by
  match bs, h0, h8 with
  | [_], _, _ | [_, _], _, _ | [_, _, _], _, _ | [_, _, _, _], _, _ | [_, _, _, _, _], _, _
  | [_, _, _, _, _, _], _, _ | [_, _, _, _, _, _, _], _, _ => rfl

/-- The word writes of `load` from word `j` up leave the bytes in IBUF, and the bytes below as they were. -/
theorem runLines_writeIbufWords (bs : List Byte) (j : Nat) (s : State) (h : 8 * j + bs.length ≤ s.config.ibufSize) :
    ∃ m, runLines (writeIbufWords j (packWords bs)) s = .next (s.setIbuf m) ∧
      (∀ i < bs.length, Memory.read m (8 * j + i) = some (bs.getD i 0#8)) ∧
      ∀ k < 8 * j, Memory.read m k = Memory.read s.ibuf k := by
  have inIbuf : ∀ (c : Config) (j : Nat), 8 * j < c.ibufSize → j < c.ibufWords := by
    intro c j h
    have := c.multipleOfEight
    unfold Config.ibufWords
    omega
  induction bs using packWords.induct generalizing j s with
  | case1 b0 b1 b2 b3 b4 b5 b6 b7 rest ih =>
    simp only [List.length_cons] at h
    let w := packWord [b0, b1, b2, b3, b4, b5, b6, b7]
    obtain ⟨m, hrun, hnew, hold⟩ := ih (j + 1) (s.setIbuf (Memory.writeWord s.ibuf j w))
      (show _ ≤ s.config.ibufSize by omega)
    refine ⟨m, ?_, fun i hi => ?_, fun k hk => ?_⟩
    · simp only [packWords, writeIbufWords, runLines, List.map_cons, runAccesses]
      rw [performAccess_wrIbuf s j _ (inIbuf _ _ (by omega))]
      exact hrun
    · by_cases hi8 : i < 8
      · rw [hold _ (by omega)]
        show Memory.read (Memory.writeWord s.ibuf j w) _ = _
        rw [Memory.read_writeWord, if_pos (by omega), Nat.add_sub_cancel_left, byteOf_packWord _ _ hi8]
        interval_cases i <;> rfl
      · obtain ⟨i, rfl⟩ : ∃ i', i = i' + 8 := ⟨i - 8, by omega⟩
        simp only [List.length_cons] at hi
        rw [show 8 * j + (i + 8) = 8 * (j + 1) + i by omega, hnew i (by omega)]
        rfl
    · rw [hold k (by omega)]
      show Memory.read (Memory.writeWord s.ibuf j w) _ = _
      rw [Memory.read_writeWord, if_neg (by omega)]
  | case2 => exact ⟨s.ibuf, rfl, fun i hi => absurd hi (Nat.not_lt_zero i), fun _ _ => rfl⟩
  | case3 bs hlong hnil =>
    have h0 : 0 < bs.length := List.length_pos_iff.2 hnil
    have h8 : bs.length < 8 := by
      by_contra hc
      match bs, hlong, hc with
      | _ :: _ :: _ :: _ :: _ :: _ :: _ :: _ :: _, hlong, _ => exact hlong _ _ _ _ _ _ _ _ _ rfl
      | [], _, hc | [_], _, hc | [_, _], _, hc | [_, _, _], _, hc | [_, _, _, _], _, hc | [_, _, _, _, _], _, hc
      | [_, _, _, _, _, _], _, hc | [_, _, _, _, _, _, _], _, hc => simp at hc
    refine ⟨Memory.writeWord s.ibuf j (packWord bs), ?_, fun i hi => ?_, fun k hk => ?_⟩
    · simp only [packWords_short bs h0 h8, writeIbufWords, runLines, List.map_cons, List.map_nil, runAccesses]
      rw [performAccess_wrIbuf s j _ (inIbuf _ _ (by omega))]
      rfl
    · rw [Memory.read_writeWord, if_pos (by omega), Nat.add_sub_cancel_left, byteOf_packWord _ _ (by omega)]
    · rw [Memory.read_writeWord, if_neg (by omega)]

/-- Everything `load` does, for a string that fits: the bytes lie in IBUF from index 0, ILEN is their number, OFFSET is
0, and nothing else changes. -/
theorem runLines_load (bs : List Byte) (s : State) (h : bs.length ≤ s.config.ibufSize) :
    ∃ m l, runLines (Pseudo.lines (.load bs)) s = .next (((s.setIbuf m).setIlen l).setOffset 0#16) ∧
      (∀ i < bs.length, Memory.read m (0 + i) = some (bs.getD i 0#8)) ∧ l.toNat = bs.length := by
  have clamp : ∀ n : Nat, n ≤ s.config.ibufSize →
      (clampToIbuf s.config (BitVec.ofInt 64 (n : Int))).toNat = n := by
    intro n hn
    have := s.config.atMost
    rw [clampToIbuf_toNat, BitVec.ofInt_natCast, BitVec.toNat_ofNat, Nat.mod_eq_of_lt (by omega), Nat.min_eq_left hn]
  obtain ⟨m, hrun, hnew, -⟩ := runLines_writeIbufWords bs 0 s (by omega)
  refine ⟨m, clampToIbuf s.config (BitVec.ofInt 64 bs.length), ?_, by simpa using hnew, clamp _ h⟩
  have hzero : clampToIbuf s.config (BitVec.ofInt 64 0) = 0#16 := BitVec.eq_of_toNat_eq (clamp 0 (Nat.zero_le _))
  have hilen : busTarget s.config RegName.ilen.addr = .ilen := busTarget_regName _ _
  have hoffset : busTarget s.config RegName.offset.addr = .offset := busTarget_regName _ _
  rw [Pseudo.lines, runLines_append, hrun, andThen_next]
  simp only [runLines, List.map_cons, List.map_nil, AsmLine.access, runAccesses, performAccess, busWrite,
    State.setIbuf, State.setIlen, hilen, hoffset, andThen_next, State.setOffset, hzero]

end Sys2Proof.Machine
end

