-- ==== Sys2Proof/Laws/PerInstr.lean ====
section
/-! SUPPORT. What holds of every command as syntax: its command word passes both checks of a command word
(`spec/30_encoding.md` R82, R83), and the command itself is well formed. One lemma per constructor. -/

namespace Sys2Proof.Laws.CommandWord

/-- The command's word is a legal command word, and the command is well formed. -/
def Statement (i : Sys2Proof.Instr) : Prop :=
  Sys2Proof.WellFormedWord (Sys2Proof.encode i) = true ∧ i.wellFormed = true

theorem nop : Statement .nop := ⟨rfl, rfl⟩
theorem enc : Statement .enc := ⟨rfl, rfl⟩
theorem dec : Statement .dec := ⟨rfl, rfl⟩
theorem deca : Statement .deca := ⟨rfl, rfl⟩
theorem zze32 : Statement .zze32 := ⟨rfl, rfl⟩
theorem zze64 : Statement .zze64 := ⟨rfl, rfl⟩
theorem zzd32 : Statement .zzd32 := ⟨rfl, rfl⟩
theorem zzd64 : Statement .zzd64 := ⟨rfl, rfl⟩
theorem clrs : Statement .clrs := ⟨rfl, rfl⟩
theorem srst : Statement .srst := ⟨rfl, rfl⟩

end Sys2Proof.Laws.CommandWord
end

