-- ==== Sys2Proof/Tests/Slice0.lean ====
section
/-! SUPPORT. Tests of one step each, with expected results from `spec/95_test_vectors.md` and the worked examples of
the command rules; the smoke test of the checks; and, for every statement of Certificates/Slice0/Obligations.lean
that has hypotheses, a witness that meets them. -/

namespace Sys2Proof.Tests

open Sys2Proof.Machine

/-! ### Helpers -/

/-- The next state, if the outcome is one. -/
def after {σ : Type} (o : Host.Outcome σ Fault Refusal) : Option σ :=
  match o with
  | .next s => some s
  | .fault _ => none
  | .refused _ => none

/-- The word, if the read gives one. -/
def word (r : Except Fault Word) : Option Word :=
  match r with
  | .ok w => some w
  | .error _ => none

/-- A state whose IN holds `v`. -/
def withIn (v : Word) : State := { State.reset with inReg := v }

/-- A state whose IBUF holds `bs` from byte 0, with OUT = 0x1234 (`spec/95_test_vectors.md` section 2.2). -/
def withBytes (bs : List Byte) (ilen offset : Nat) : State :=
  { State.reset with
    out := 0x1234#64
    ilen := BitVec.ofNat 16 ilen
    offset := BitVec.ofNat 16 offset
    ibuf := Memory.writeRun [] 0 bs }

/-- Sixteen written bytes: `bs`, then zeros. -/
def padded (bs : List Byte) : List Byte := bs ++ List.replicate (16 - bs.length) 0#8

/-- A state with OUT = 7 and STATUS = 0x001 (`spec/95_test_vectors.md` section 2.4). -/
def terminated : State := { State.reset with out := 7#64, status := { dstate := 1#2, err := 0#4, sticky := false } }

/-- STATUS, OUT, CNT and OFFSET of the next state, as the tables of section 2.2 list them. -/
def decoded (o : Host.Outcome State Fault Refusal) : Option (Word × Word × Nat × Nat) :=
  (after o).map fun t => (t.status.word, t.out, t.cnt.toNat, t.offset.toNat)

/-- Nine bytes 0x80. -/
def nine80 : List Byte := List.replicate 9 0x80#8

/-- Nine bytes 0xFF. -/
def nineFF : List Byte := List.replicate 9 0xFF#8

/-! ### The checks refuse what is ill formed -/

theorem test_wf_refuses_reserved_bit : WellFormedWord 0x0000000000000101#64 = false := by decide
theorem test_wf_refuses_top_bit : reservedBitsClear 0x8000000000000000#64 = false := by decide
theorem test_wf_refuses_reserved_opcode : opcodeAssigned 0x0000000000000009#64 = false := by decide
theorem test_wf_accepts_srst : WellFormedWord 0x000000000000000F#64 = true := by decide
theorem test_size_refuses_not_multiple_of_8 : legalIbufSize 20 = false := by decide
theorem test_size_refuses_too_small : legalIbufSize 8 = false := by decide
theorem test_size_refuses_too_large : legalIbufSize 32776 = false := by decide
theorem test_size_accepts_the_default : Config.ofSize? 256 = some Config.standard := by decide
theorem test_size_builds_none_of_20 : Config.ofSize? 20 = none := by decide
theorem test_memory_wf_refuses_falling : Memory.wf [(3, 0#8), (2, 0#8)] = false := by decide

/-! ### Decoding (R81, R90, and the illegal words of section 2.4) -/

/-- RSV of 56 zero bits, then OPCODE bit by bit as R80 and R81 give it. -/
theorem test_decode_enc_bits : decode (0#56 ++ 0b00000001#8) = .ok .enc := by rfl
theorem test_decode_dec_bits : decode (0#56 ++ 0b00000010#8) = .ok .dec := by rfl
theorem test_decode_deca_bits : decode (0#56 ++ 0b00000011#8) = .ok .deca := by rfl
theorem test_decode_zze32_bits : decode (0#56 ++ 0b00000100#8) = .ok .zze32 := by rfl
theorem test_decode_zze64_bits : decode (0#56 ++ 0b00000101#8) = .ok .zze64 := by rfl
theorem test_decode_zzd32_bits : decode (0#56 ++ 0b00000110#8) = .ok .zzd32 := by rfl
theorem test_decode_zzd64_bits : decode (0#56 ++ 0b00000111#8) = .ok .zzd64 := by rfl
theorem test_decode_nop_bits : decode (0#56 ++ 0b00000000#8) = .ok .nop := by rfl
theorem test_decode_clrs_bits : decode (0#56 ++ 0b00001000#8) = .ok .clrs := by rfl
theorem test_decode_srst_bits : decode (0#56 ++ 0b00001111#8) = .ok .srst := by rfl
theorem test_decode_reserved_0E : decode 0x000000000000000E#64 = .error .reservedOpcode := by rfl
theorem test_decode_reserved_10 : decode 0x0000000000000010#64 = .error .reservedOpcode := by rfl
theorem test_decode_rsv_101 : decode 0x0000000000000101#64 = .error .reservedBitsSet := by rfl
theorem test_decode_table_word : decodeTableWord 64 0xF = some .srst := by decide
theorem test_decode_table_word_illegal : decodeTableWord 64 0x103 = none := by decide

/-! ### ENC (section 2.1, S2 and S3) -/

theorem test_enc_150 :
    (after (exec .enc (withIn 150))).map (fun t => (t.elen, ebuf0Word t.ebuf, ebuf1Word t.ebuf)) =
      some (2#4, 0x0000000000000196#64, 0#64) := by decide

theorem test_enc_max :
    (after (exec .enc (withIn 0xFFFFFFFFFFFFFFFF#64))).map
      (fun t => (t.elen, ebuf0Word t.ebuf, ebuf1Word t.ebuf)) =
      some (10#4, 0xFFFFFFFFFFFFFFFF#64, 0x00000000000001FF#64) := by decide

/-! ### DEC and DECA (section 2.2) -/

theorem test_dec_largest :
    decoded (exec .dec (withBytes (nineFF ++ [0x01#8]) 10 0)) =
      some (0x001#64, 0xFFFFFFFFFFFFFFFF#64, 10, 0) := by decide

/-- Ten continuation bytes that end the buffer: Overflow, not TruncatedInput (C1). -/
theorem test_dec_ten_80 :
    decoded (exec .dec (withBytes (nine80 ++ [0x80#8]) 10 0)) = some (0x122#64, 0x1234#64, 0, 0) := by decide

theorem test_deca_advances :
    decoded (exec .deca (withBytes [0x01#8, 0x96#8, 0x01#8, 0xAC#8, 0x02#8] 5 1)) =
      some (0x001#64, 0x96#64, 2, 3) := by decide

theorem test_deca_truncated :
    decoded (exec .deca (withBytes [0x96#8, 0x01#8] 1 0)) = some (0x112#64, 0x1234#64, 0, 0) := by decide

/-! ### ZigZag (section 2.3) -/

theorem test_zze32_high_half_ignored :
    (after (exec .zze32 (withIn 0xFFFFFFFF00000001#64))).map (·.out) = some 2#64 := by decide

theorem test_zze32_min :
    (after (exec .zze32 (withIn 0x0000000080000000#64))).map (·.out) = some 0x00000000FFFFFFFF#64 := by decide

theorem test_zze64_minus_300 :
    (after (exec .zze64 (withIn 0xFFFFFFFFFFFFFED4#64))).map (·.out) = some 599#64 := by decide

theorem test_zze64_positive :
    (after (exec .zze64 (withIn 0x00000000FFFFFFFF#64))).map (·.out) = some 0x00000001FFFFFFFE#64 := by decide

theorem test_zzd32_sign_extends :
    (after (exec .zzd32 (withIn 0x00000000FFFFFFFF#64))).map (·.out) = some 0xFFFFFFFF80000000#64 := by decide

theorem test_zzd32_high_half_ignored :
    (after (exec .zzd32 (withIn 0xABCDEF0100000003#64))).map (·.out) = some 0xFFFFFFFFFFFFFFFE#64 := by decide

theorem test_zzd64_max :
    (after (exec .zzd64 (withIn 0xFFFFFFFFFFFFFFFE#64))).map (·.out) = some 0x7FFFFFFFFFFFFFFF#64 := by decide

theorem test_zzd64_of_a_zze32_result :
    (after (exec .zzd64 (withIn 0x00000000FFFFFFFF#64))).map (·.out) = some 0xFFFFFFFF80000000#64 := by decide

/-! ### Control and illegal commands (section 2.4) -/

theorem test_nop_keeps_err :
    (after (exec .nop { terminated with status := ⟨2#2, 1#4, true⟩ })).map (·.status.word) = some 0x112#64 := by
  decide

theorem test_clrs :
    (after (exec .clrs { terminated with status := ⟨2#2, 1#4, true⟩ })).map (fun t => (t.status.word, t.out)) =
      some (0#64, 7#64) := by decide

theorem test_srst :
    (after (exec .srst { terminated with ibuf := [(0, 5#8)] })).map (fun t => (t.status.word, t.out, t.ibuf)) =
      some (0#64, 0#64, [(0, 5#8)]) := by decide

theorem test_illegal_word_runs_no_command :
    (after (busWrite 0x001#13 0x0000000000000101#64 terminated)).map
      (fun t => (t.status.word, t.out, t.elen)) = some (0x131#64, 7#64, 0#4) := by decide

/-! ### Bus (section 2.5) -/

theorem test_read_id : word (busRead State.reset 0x000#13) = some 0x5641524900010100#64 := by decide
theorem test_read_unmapped_after_ibuf : word (busRead State.reset 0x1020#13) = some 0#64 := by decide
theorem test_read_unwritten_ibuf_faults : word (busRead State.reset 0x1000#13) = none := by decide
theorem test_write_offset_clamps :
    (after (busWrite 0x007#13 1000#64 State.reset)).map (·.offset) = some 0x100#16 := by decide
theorem test_write_ilen_clamps :
    (after (busWrite 0x008#13 0xFFFFFFFFFFFFFFFF#64 State.reset)).map (·.ilen) = some 0x100#16 := by decide
theorem test_write_ibuf_word_0 :
    (after (busWrite 0x1000#13 0x00000002AC019601#64 State.reset)).map (·.ibuf) =
      some [(0, 0x01#8), (1, 0x96#8), (2, 0x01#8), (3, 0xAC#8), (4, 0x02#8), (5, 0x00#8), (6, 0x00#8), (7, 0x00#8)] := by
  decide
theorem test_write_ibuf_word_1 :
    (after (busWrite 0x1001#13 0x00000001FFFFFFFF#64 State.reset)).map
      (fun t => (Memory.read t.ibuf 8, Memory.read t.ibuf 12, Memory.read t.ibuf 7)) =
      some (some 0xFF#8, some 0x01#8, none) := by decide
theorem test_step_from_reset_runs_the_placed_command :
    (after (step (State.reset.withFetchWord 64 2))).map (·.status.word) = some 0x112#64 := by decide

/-! ### Host assembly (R88, R89; the encodings of program P2 and of section 2.5) -/

theorem test_asm_negative_literal :
    (AsmLine.wr .inReg (-300)).access = .write 0x003#13 0xFFFFFFFFFFFFFED4#64 := by decide
theorem test_asm_load :
    (Pseudo.lines (.load [0x01#8, 0x96#8, 0x01#8, 0xAC#8, 0x02#8])).map AsmLine.access =
      [.write 0x1000#13 0x00000002AC019601#64, .write 0x008#13 5#64, .write 0x007#13 0#64] := by decide
theorem test_asm_load_nothing :
    (Pseudo.lines (.load [])).map AsmLine.access = [.write 0x008#13 0#64, .write 0x007#13 0#64] := by decide

/-! ### Witnesses: the hypotheses of the statements can be met, clause by clause -/

/-- A host that is about to write `d` to word address `a`. -/
def aboutToWrite (a : BusAddr) (d : Word) (s : State) : State := s.setQueue [.access (.write a d)]

/-- The bytes of 150 at index 0, with both flags of an earlier error. -/
def ready : State :=
  { withBytes (padded [0x96#8, 0x01#8]) 2 0 with status := { dstate := 2#2, err := 1#4, sticky := true } }

theorem test_witness_StepRunsTheDecodedCommand :
    (aboutToWrite 0x001#13 1#64 State.reset).hostQueue = .access (.write 0x001#13 1#64) :: [] ∧
      decode 1#64 = .ok .enc := ⟨rfl, rfl⟩

theorem test_witness_StepPerforms_read :
    (State.reset.setQueue [.access (.read 0x004#13)]).hostQueue = .access (.read 0x004#13) :: [] ∧
      busRead (State.reset.setQueue [.access (.read 0x004#13)]) 0x004#13 = .ok 0#64 := ⟨rfl, rfl⟩
theorem test_witness_StepPerforms_fault :
    (State.reset.setQueue [.access (.read 0x101F#13)]).hostQueue = .access (.read 0x101F#13) :: [] ∧
      busRead (State.reset.setQueue [.access (.read 0x101F#13)]) 0x101F#13 = .error (.busReadsUnwritten 31) :=
  ⟨rfl, rfl⟩
theorem test_witness_StepPerforms_write :
    (aboutToWrite 0x003#13 9#64 State.reset).hostQueue = .access (.write 0x003#13 9#64) :: [] := rfl
theorem test_witness_StepPerforms_idle : State.reset.hostQueue = [] := rfl

theorem test_witness_EveryWord_reserved : (0x0100#64 : Word).extractLsb' 8 56 ≠ 0#56 := by decide
theorem test_witness_EveryWord_command : (0x000F#64 : Word) = encode .srst := rfl
theorem test_witness_EveryWord_illegal : ∀ i, (0x0010#64 : Word) ≠ encode i := by
  intro i
  cases i <;> decide

theorem test_witness_ReservedWords_rsv : (0x8000000000000000#64 : Word).extractLsb' 8 56 ≠ 0#56 := by decide
theorem test_witness_ReservedWords_low :
    0x09 ≤ ((0x000E#64 : Word).extractLsb' 0 8).toNat ∧ ((0x000E#64 : Word).extractLsb' 0 8).toNat ≤ 0x0E := by decide
theorem test_witness_ReservedWords_high : 0x10 ≤ ((0x0010#64 : Word).extractLsb' 0 8).toNat := by decide

theorem test_witness_In_exec : ∃ t, exec .srst ready = .next t := ⟨_, rfl⟩
theorem test_witness_In_command :
    ∃ t, busWrite 0x001#13 (encode .enc) ready = .next t ∧ encode .enc ≠ encode .srst := ⟨_, rfl, by decide⟩
theorem test_witness_In_same_low_half :
    (0xFFFFFFFF00000003#64 : Word).extractLsb' 0 32 = (withIn 3#64).inReg.extractLsb' 0 32 := by decide
theorem test_witness_In_differs : (0#64 : Word) ≠ (withIn 3#64).inReg := by decide

theorem test_witness_Cnt_success : ∃ t, exec .dec ready = .next t ∧ t.status.err = 0#4 := ⟨_, rfl, by decide⟩
theorem test_witness_Cnt_failure :
    ∃ t, exec .deca (withBytes nine80 9 0) = .next t ∧ t.status.err ≠ 0#4 := ⟨_, rfl, by decide⟩
theorem test_witness_Cnt_srst : ∃ t, exec .srst ready = .next t := ⟨_, rfl⟩
theorem test_witness_Cnt_other : ∃ t, busWrite 0x001#13 0x0009#64 ready = .next t ∧ (0x0009#64 : Word) ≠ encode .dec ∧
    (0x0009#64 : Word) ≠ encode .deca ∧ (0x0009#64 : Word) ≠ encode .srst :=
  ⟨_, rfl, by decide, by decide, by decide⟩
theorem test_witness_Cnt_range :
    (aboutToWrite 0x001#13 2#64 ready).cnt.toNat ≤ 10 ∧ ∃ t, step (aboutToWrite 0x001#13 2#64 ready) = .next t :=
  ⟨by decide, _, rfl⟩

theorem test_witness_Elen_srst : ∃ t, exec .srst ready = .next t := ⟨_, rfl⟩
theorem test_witness_Elen_other : ∃ t, busWrite 0x001#13 (encode .clrs) ready = .next t ∧
    encode .clrs ≠ encode .enc ∧ encode .clrs ≠ encode .srst := ⟨_, rfl, by decide, by decide⟩
theorem test_witness_Elen_cleared_by_srst :
    (aboutToWrite 0x001#13 0xF#64 (ready.setElen 10#4)).elen ≠ 0#4 ∧
      ∃ t, step (aboutToWrite 0x001#13 0xF#64 (ready.setElen 10#4)) = .next t ∧ t.elen = 0#4 :=
  ⟨by decide, _, rfl, by decide⟩
theorem test_witness_Elen_cleared_by_power_on :
    ∃ t, step ((ready.setElen 1#4).setQueue [.powerOnReset]) = .next t ∧ t.elen = 0#4 := ⟨_, rfl, by decide⟩
theorem test_witness_Elen_range :
    (aboutToWrite 0x001#13 1#64 ready).elen.toNat ≤ 10 ∧ ∃ t, step (aboutToWrite 0x001#13 1#64 ready) = .next t :=
  ⟨by decide, _, rfl⟩

theorem test_witness_Status_write :
    (0x000#13 : BusAddr) ≠ 0x001#13 ∧ ∃ t, busWrite 0x000#13 5#64 ready = .next t := ⟨by decide, _, rfl⟩
theorem test_witness_Status_read : ∃ t, performAccess (.read 0x002#13) ready = .next t := ⟨_, rfl⟩
theorem test_witness_Status_codes :
    (aboutToWrite 0x001#13 0x9#64 ready).status.dstate ≠ 3#2 ∧
      (aboutToWrite 0x001#13 0x9#64 ready).status.err.toNat ≤ 3 ∧
      ∃ t, step (aboutToWrite 0x001#13 0x9#64 ready) = .next t := ⟨by decide, by decide, _, rfl⟩

theorem test_witness_Err_legal : Instr.clrs ≠ .nop ∧ Instr.clrs ≠ .dec ∧ Instr.clrs ≠ .deca := by decide
theorem test_witness_Err_decode : ∃ t, exec .dec (withBytes nine80 9 0) = .next t ∧ t.status.err = 1#4 :=
  ⟨_, rfl, by decide⟩
theorem test_witness_Err_overflow :
    ∃ t, exec .deca (withBytes (nine80 ++ [0x02#8]) 10 0) = .next t ∧ t.status.err = 2#4 := ⟨_, rfl, by decide⟩

theorem test_witness_Dstate_decode : ∃ t, exec .deca ready = .next t ∧ t.status.dstate = 1#2 := ⟨_, rfl, by decide⟩
theorem test_witness_Dstate_other : ∃ t, busWrite 0x001#13 (encode .enc) ready = .next t ∧
    encode .enc ≠ encode .dec ∧ encode .enc ≠ encode .deca ∧ encode .enc ≠ encode .clrs ∧
    encode .enc ≠ encode .srst := ⟨_, rfl, by decide, by decide, by decide, by decide⟩
theorem test_witness_Dstate_range :
    (aboutToWrite 0x001#13 3#64 ready).status.dstate ≠ 3#2 ∧
      ∃ t, step (aboutToWrite 0x001#13 3#64 ready) = .next t := ⟨by decide, _, rfl⟩

theorem test_witness_Sticky_set : ∃ t, busWrite 0x001#13 0x0100#64 State.reset = .next t ∧
    (0x0100#64 : Word) ≠ encode .nop ∧ t.status.err ≠ 0#4 := ⟨_, rfl, by decide, by decide⟩
theorem test_witness_Sticky_cleared_by_clrs :
    (aboutToWrite 0x001#13 8#64 ready).status.sticky = true ∧
      ∃ t, step (aboutToWrite 0x001#13 8#64 ready) = .next t ∧ t.status.sticky = false := ⟨rfl, _, rfl, rfl⟩
theorem test_witness_Sticky_cleared_by_srst :
    ∃ t, step (aboutToWrite 0x001#13 0xF#64 ready) = .next t ∧ t.status.sticky = false := ⟨_, rfl, rfl⟩
theorem test_witness_Sticky_cleared_by_power_on :
    ∃ t, step (ready.setQueue [.powerOnReset]) = .next t ∧ t.status.sticky = false := ⟨_, rfl, rfl⟩

theorem test_witness_Id_default : State.reset.config.ibufSize = 256 := rfl

theorem test_witness_OffsetAndIlen_step :
    OffsetsBounded (aboutToWrite 0x001#13 3#64 ready) ∧ ∃ t, step (aboutToWrite 0x001#13 3#64 ready) = .next t :=
  ⟨by decide, _, rfl⟩
theorem test_witness_OffsetAndIlen_above : (withBytes [] 2 3).ilen.toNat < (withBytes [] 2 3).offset.toNat := by decide

theorem test_witness_WriteSets_nop : ∃ t, exec .nop ready = .next t := ⟨_, rfl⟩
theorem test_witness_WriteSets_enc : ∃ t, exec .enc ready = .next t := ⟨_, rfl⟩
theorem test_witness_WriteSets_zigzag : ∃ t, exec .zzd64 ready = .next t := ⟨_, rfl⟩
theorem test_witness_WriteSets_decode_ok : ∃ t, exec .deca ready = .next t ∧ t.status.err = 0#4 := ⟨_, rfl, by decide⟩
theorem test_witness_WriteSets_decode_fails :
    ∃ t, exec .dec (withBytes [0x80#8] 1 0) = .next t ∧ t.status.err ≠ 0#4 := ⟨_, rfl, by decide⟩
theorem test_witness_WriteSets_clrs : ∃ t, exec .clrs ready = .next t := ⟨_, rfl⟩
theorem test_witness_WriteSets_srst : ∃ t, exec .srst ready = .next t := ⟨_, rfl⟩
theorem test_witness_WriteSets_illegal :
    (∀ i, (0xFF#64 : Word) ≠ encode i) ∧ ∃ t, busWrite 0x001#13 0xFF#64 ready = .next t :=
  ⟨fun i => by cases i <;> decide, _, rfl⟩

theorem test_witness_Reads_access : ∃ t, performAccess (.read 0x1000#13) ready = .next t := ⟨_, rfl⟩
theorem test_witness_Reads_gap_low : 0x009 ≤ (0x00F#13 : BusAddr).toNat ∧ (0x00F#13 : BusAddr).toNat ≤ 0x00F := by decide
theorem test_witness_Reads_gap_high :
    0x012 ≤ (0x0FFF#13 : BusAddr).toNat ∧ (0x0FFF#13 : BusAddr).toNat ≤ 0x0FFF := by decide
theorem test_witness_Reads_above_ibuf : 0x1000 + State.reset.config.ibufSize / 8 ≤ (0x1020#13 : BusAddr).toNat := by
  decide
theorem test_witness_Reads_ibuf_word :
    1 < ready.config.ibufSize / 8 ∧ (List.replicate 8 0#8).length = 8 ∧
      BytesAt ready.ibuf (8 * 1) (List.replicate 8 0#8) := by decide

theorem test_witness_Writes_ignored : (0x000#13 : BusAddr).toNat = 0 ∧ (0x006#13 : BusAddr).toNat ≤ 0x006 := by decide
theorem test_witness_Writes_gap : 0x009 ≤ (0x009#13 : BusAddr).toNat ∧ (0x011#13 : BusAddr).toNat ≤ 0x0FFF := by decide
theorem test_witness_Writes_above_ibuf : 0x1000 + ready.config.ibufSize / 8 ≤ (0x1FFF#13 : BusAddr).toNat := by decide
theorem test_witness_Writes_last_ibuf_word :
    31 < ready.config.ibufSize / 8 ∧ (8 * 31 + 8 ≤ 256 ∨ (255 : Nat) < 8 * 31) := by decide

theorem test_witness_Packing_write : 0 < State.reset.config.ibufSize / 8 ∧
    ∃ t, busWrite (BitVec.ofNat 13 (0x1000 + 0)) 0x0102030405060708#64 State.reset = .next t :=
  ⟨by decide, _, rfl⟩
theorem test_witness_Packing_read :
    0 < ready.config.ibufSize / 8 ∧ BytesAt ready.ibuf (8 * 0) [0x96#8, 0x01#8, 0#8, 0#8, 0#8, 0#8, 0#8, 0#8] := by
  decide

theorem test_witness_StoringTwice :
    Memory.wf ready.ibuf = true ∧ (0x1001#13 : BusAddr) ≠ 0x001#13 ∧
      ∃ t, busWrite 0x1001#13 0xFF#64 ready = .next t := ⟨by decide, by decide, _, rfl⟩

theorem test_witness_ResultsHold_write :
    (0x007#13 : BusAddr) ≠ 0x001#13 ∧ ∃ t, busWrite 0x007#13 1#64 ready = .next t := ⟨by decide, _, rfl⟩
theorem test_witness_ResultsHold_command : ∃ t, exec .enc ready = .next t ∧ Instr.enc ≠ .srst := ⟨_, rfl, by decide⟩
theorem test_witness_ResultsHold_failed_decode :
    ∃ t, exec .dec (withBytes [] 0 0) = .next t ∧ t.status.err ≠ 0#4 := ⟨_, rfl, by decide⟩

theorem test_witness_Unwritten_read :
    31 < State.reset.config.ibufSize / 8 ∧ ∃ i < 8, Memory.read State.reset.ibuf (8 * 31 + i) = none := by decide
theorem test_witness_Unwritten_decode :
    ∃ n < 10, (withBytes nine80 10 0).offset.toNat + n < (withBytes nine80 10 0).ilen.toNat ∧
      ContinuationRun (withBytes nine80 10 0).ibuf (withBytes nine80 10 0).offset.toNat n ∧
      Memory.read (withBytes nine80 10 0).ibuf ((withBytes nine80 10 0).offset.toNat + n) = none := by decide
theorem test_witness_Unwritten_write : 31 < ready.config.ibufSize / 8 ∧ 7 < 8 ∧
    ∃ t, busWrite (BitVec.ofNat 13 (0x1000 + 31)) 1#64 ready = .next t := ⟨by decide, by decide, _, rfl⟩
theorem test_witness_Unwritten_stays :
    (Memory.read (aboutToWrite 0x001#13 0xF#64 ready).ibuf 0).isSome = true ∧
      ∃ t, step (aboutToWrite 0x001#13 0xF#64 ready) = .next t := ⟨by decide, _, rfl⟩
theorem test_witness_Unwritten_power_on :
    (Memory.read (ready.setQueue [.powerOnReset]).ibuf 0).isSome = true ∧
      ∃ t, step (ready.setQueue [.powerOnReset]) = .next t := ⟨by decide, _, rfl⟩

theorem test_witness_OnlyUnwritten_decode :
    step (aboutToWrite 0x001#13 2#64 (withBytes nine80 10 0)) = .fault (.decodeReadsUnwritten 9) := rfl
theorem test_witness_OnlyUnwritten_read :
    step (State.reset.setQueue [.access (.read 0x101F#13)]) = .fault (.busReadsUnwritten 31) := rfl

theorem test_witness_EncodeLength_order : (127#64 : Word).toNat ≤ (128#64 : Word).toNat := by decide
theorem test_witness_EncodeLength_ten : (varintEncode 0x8000000000000000#64).length = 10 := by decide
theorem test_witness_EncodeLength_range : (varintEncode 0x7FFFFFFFFFFFFFFF#64).length = 9 := by decide

/-- An overlong varint of 1 (R124), and the canonical one. -/
theorem test_witness_EncodeIsTheShortest_overlong :
    IsVarint [0x81#8, 0x80#8, 0x00#8] ∧ varintValue [0x81#8, 0x80#8, 0x00#8] = (1#64 : Word).toNat := by decide
theorem test_witness_EncodeIsTheShortest_equal :
    IsVarint [0x01#8] ∧ varintValue [0x01#8] = (1#64 : Word).toNat ∧
      [0x01#8].length = (varintEncode 1#64).length := by decide

theorem test_witness_DecodeDependsOnly_ok :
    varintDecode [(0, 0x96#8), (1, 0x01#8)] 0 5 = .ok 150#64 2 ∧
      AgreeOn [(0, 0x96#8), (1, 0x01#8)] [(0, 0x96#8), (1, 0x01#8), (2, 7#8)] 0 2 := by decide
theorem test_witness_DecodeDependsOnly_truncated :
    varintDecode [(0, 0x96#8), (1, 0x01#8)] 0 1 = .err .truncatedInput ∧
      AgreeOn [(0, 0x96#8), (1, 0x01#8)] [(0, 0x96#8)] 0 (1 - 0) := by decide
theorem test_witness_DecodeDependsOnly_overflow :
    varintDecode (Memory.writeRun [] 3 (nine80 ++ [0x02#8])) 3 13 = .err .overflow ∧
      AgreeOn (Memory.writeRun [] 3 (nine80 ++ [0x02#8])) (Memory.writeRun [] 3 (nine80 ++ [0x02#8, 0#8])) 3 10 := by
  decide

theorem test_witness_DecodeReports_nine : ContinuationRun (Memory.writeRun [] 0 nine80) 0 9 := by decide
theorem test_witness_DecodeReports_ten :
    ContinuationRun (Memory.writeRun [] 0 (nine80 ++ [0x80#8])) 0 9 ∧
      ContinuationRun (Memory.writeRun [] 0 (nine80 ++ [0x80#8])) 0 10 ∧ 0 + 10 ≤ 10 := by decide
theorem test_witness_DecodeReports_tenth_payload :
    ContinuationRun (Memory.writeRun [] 0 (nine80 ++ [0x02#8])) 0 9 ∧
      Memory.read (Memory.writeRun [] 0 (nine80 ++ [0x02#8])) (0 + 9) = some 0x02#8 ∧
      (0x02#8 : Byte).extractLsb' 1 6 ≠ 0#6 ∧ 0 + 10 ≤ 10 := by decide

/-- DEC and DECA, the three clauses, the success at the last byte of the buffer and at ten bytes. -/
theorem test_witness_Decode_success :
    IsVarint (nineFF ++ [0x01#8]) ∧ varintValue (nineFF ++ [0x01#8]) < 2 ^ 64 ∧
      BytesAt (withBytes (nineFF ++ [0x01#8]) 10 0).ibuf (withBytes (nineFF ++ [0x01#8]) 10 0).offset.toNat
        (nineFF ++ [0x01#8]) ∧
      (withBytes (nineFF ++ [0x01#8]) 10 0).offset.toNat + (nineFF ++ [0x01#8]).length ≤
        (withBytes (nineFF ++ [0x01#8]) 10 0).ilen.toNat := by decide
theorem test_witness_Decode_truncated :
    TruncatedAt (withBytes nine80 9 0).ibuf (withBytes nine80 9 0).offset.toNat (withBytes nine80 9 0).ilen.toNat := by
  decide
theorem test_witness_Decode_overflow :
    OverflowAt (withBytes (nine80 ++ [0x02#8]) 10 0).ibuf (withBytes (nine80 ++ [0x02#8]) 10 0).offset.toNat
      (withBytes (nine80 ++ [0x02#8]) 10 0).ilen.toNat := by decide
theorem test_witness_DecodeCommandsComplete :
    DecodeReadable ready.ibuf ready.offset.toNat ready.ilen.toNat := by decide

theorem test_witness_DecodeUndoesEncode :
    BytesAt ready.ibuf ready.offset.toNat (varintEncode 150#64) ∧
      ready.offset.toNat + (varintEncode 150#64).length ≤ ready.ilen.toNat := by decide

theorem test_witness_StreamDecode :
    (([1#64, 150#64, 300#64] : List Word).map varintEncode).flatten.length ≤ State.reset.config.ibufSize := by decide
theorem test_witness_StreamDecodeEnds : (List.replicate 256 0x80#8).length ≤ State.reset.config.ibufSize := by
  rw [List.length_replicate]
  decide
theorem test_witness_StreamDecodeEnds_error :
    (after (decodeAll [0x05#8, 0x80#8, 0x80#8] State.reset)).map (fun r => (r.1, r.2.offset)) =
      some (.err 1#4, 1#16) := by decide
theorem test_witness_StreamDecodeEnds_overflow :
    (after (decodeAll ([0x05#8] ++ nine80 ++ [0x02#8]) State.reset)).map (fun r => (r.1, r.2.offset, r.2.ilen)) =
      some (.err 2#4, 1#16, 11#16) := by decide

theorem test_witness_Zigzag_operand : (3#32 : BitVec 32) = (withIn 3#64).inReg.extractLsb' 0 32 := by decide
theorem test_witness_ZigzagResults_signed :
    BytesAt (withBytes [0xD7#8, 0x04#8] 2 0).ibuf (withBytes [0xD7#8, 0x04#8] 2 0).offset.toNat
        (varintEncode (zzEnc64 0xFFFFFFFFFFFFFED4#64)) ∧
      (withBytes [0xD7#8, 0x04#8] 2 0).offset.toNat + (varintEncode (zzEnc64 0xFFFFFFFFFFFFFED4#64)).length ≤
        (withBytes [0xD7#8, 0x04#8] 2 0).ilen.toNat := by decide

theorem test_witness_Nop_word : (0x0100#64 : Word).extractLsb' 0 8 = 0x00#8 ∧ (0x0100#64 : Word) ≠ 0#64 := by decide

theorem test_witness_ResetValues_ends :
    0x001 ≤ (0x001#13 : BusAddr).toNat ∧ (0x011#13 : BusAddr).toNat ≤ 0x011 := by decide
theorem test_witness_PowerOnReset :
    (ready.setQueue [.powerOnReset, .access (.read 0#13)]).hostQueue =
      .powerOnReset :: [.access (.read 0#13)] := rfl

theorem test_witness_EveryStep :
    Inv (aboutToWrite 0x001#13 3#64 ready) ∧ ∃ t, step (aboutToWrite 0x001#13 3#64 ready) = .next t :=
  ⟨by decide, _, rfl⟩
theorem test_witness_BuildParameters : ∃ t, step (ready.setQueue [.powerOnReset]) = .next t := ⟨_, rfl⟩

theorem test_witness_ResultsDepend_in : (withIn 3#64).inReg = ({ terminated with inReg := 3#64 } : State).inReg := rfl
theorem test_witness_ResultsDepend_decode :
    ready.offset = (withBytes (padded [0x96#8, 0x01#8]) 2 0).offset ∧
      ready.ilen = (withBytes (padded [0x96#8, 0x01#8]) 2 0).ilen ∧
      AgreeOn ready.ibuf (withBytes (padded [0x96#8, 0x01#8]) 2 0).ibuf ready.offset.toNat 10 ∧
      ∃ t, exec .dec ready = .next t := ⟨rfl, rfl, by decide, _, rfl⟩

/-- Every queued event but the excluded ones: a read below the IBUF window, its last address, and an ENC. -/
theorem test_witness_RunsThatReadNoIbuf :
    ∀ e ∈ (State.reset.setQueue [.access (.read 0x0FFF#13), .access (.write 0x001#13 1#64), .powerOnReset]).hostQueue,
      ¬ MayReadIbuf e := by
  simp only [State.setQueue_hostQueue, List.forall_mem_cons, MayReadIbuf, IsDecodeWord]
  refine ⟨?_, ?_, ?_, fun e h => absurd h List.not_mem_nil⟩ <;> rintro (⟨a, h, ha⟩ | ⟨d, h, hd⟩) <;>
    cases h
  · exact absurd ha (by decide)
  · exact absurd hd (by decide)
theorem test_witness_HostProgramsRun :
    ∃ t, runAccesses [.write 0x003#13 150#64, .write 0x001#13 1#64, .read 0x010#13]
      { State.reset with hostQueue := [] } = .next t ∧ t.hostReads = [0x0196#64] := ⟨_, rfl, by decide⟩

end Sys2Proof.Tests
end

section
/-! SUPPORT. What a step does with the host's oldest event: an equation per kind of event, and how a write to CMD
reaches the command its word encodes. -/

namespace Sys2Proof.Machine

/-! ### One event of the host -/

/-- With no event pending a step changes nothing (log entry 4). -/
theorem step_of_empty_queue {s : State} (hq : s.hostQueue = []) : step s = .next s := by
  simp only [step, hostStep, hq]

/-- A step takes the oldest event off the queue and performs it (R11, R220). -/
theorem step_of_event {s : State} {e : HostEvent} {rest : List HostEvent} (hq : s.hostQueue = e :: rest) :
    step s = performEvent e (s.setQueue rest) := by
  simp only [step, hostStep, hq]

/-- A step whose event is a write does that write on the state without the event (R62). -/
theorem step_of_write {s : State} {a : BusAddr} {d : Word} {rest : List HostEvent}
    (hq : s.hostQueue = .access (.write a d) :: rest) : step s = busWrite a d (s.setQueue rest) :=
  step_of_event hq

/-- What the host still has to issue does not change what a read returns (R61). -/
@[simp] theorem busRead_setQueue (s : State) (rest : List HostEvent) (a : BusAddr) :
    busRead (s.setQueue rest) a = busRead s a := rfl

/-- A step whose event is a read that returns `v` hands `v` to the host (R61, R224). -/
theorem step_of_read_ok {s : State} {a : BusAddr} {rest : List HostEvent} {v : Word}
    (hq : s.hostQueue = .access (.read a) :: rest) (hr : busRead s a = .ok v) :
    step s = .next ((s.setQueue rest).addRead v) := by
  rw [step_of_event hq]
  simp only [performEvent, performAccess, busRead_setQueue, hr]

/-- A step whose event is a read that faults stops with that fault (R76). -/
theorem step_of_read_error {s : State} {a : BusAddr} {rest : List HostEvent} {f : Fault}
    (hq : s.hostQueue = .access (.read a) :: rest) (hr : busRead s a = .error f) : step s = .fault f := by
  rw [step_of_event hq]
  simp only [performEvent, performAccess, busRead_setQueue, hr]

/-! ### A write to CMD -/

/-- Word address 0x001 is CMD in every build (R63). -/
theorem busTarget_cmdAddr (c : Config) : busTarget c 0x001#13 = .cmd := busTarget_regName c .cmd

/-- A write to word address 0x001 is a command write (R31). -/
theorem busWrite_cmdAddr (d : Word) (s : State) : busWrite 0x001#13 d s = commandWrite d s := by
  simp only [busWrite, busTarget_cmdAddr]

/-- A word that decodes to a command runs that command (R87). -/
theorem commandWrite_of_decode_ok {d : Word} {i : Instr} (hd : decode d = .ok i) (s : State) :
    commandWrite d s = exec i s := by
  simp only [commandWrite, hd]

/-- The command word of a command decodes to that command (R87, R90). -/
@[simp] theorem decode_encode (i : Instr) : decode (encode i) = .ok i := by cases i <;> rfl

/-- A step whose event writes a word that decodes to `i` to CMD runs `i` on the state without the event. -/
theorem step_of_command {s : State} {d : Word} {i : Instr} {rest : List HostEvent}
    (hq : s.hostQueue = .access (.write 0x001#13 d) :: rest) (hd : decode d = .ok i) :
    step s = exec i (s.setQueue rest) := by
  rw [step_of_write hq, busWrite_cmdAddr, commandWrite_of_decode_ok hd]

/-! ### The command `withFetchWord` places -/

/-- A 64-bit word given by its number is that word. -/
theorem tableWord_toNat (d : Word) : tableWord 64 d.toNat = d := by
  rw [tableWord, Nat.mod_eq_of_lt d.isLt, BitVec.ofNat_toNat, BitVec.setWidth_eq]

/-- `withFetchWord` puts the write of the command word to CMD before the events the host has pending. -/
theorem withFetchWord_hostQueue (s : State) (d : Word) :
    (s.withFetchWord 64 d.toNat).hostQueue = .access (.write 0x001#13 d) :: s.hostQueue := by
  rw [State.withFetchWord, placeCommand, tableWord_toNat, State.setQueue_hostQueue, cmdAddr]

/-- Taking the placed command off the queue again gives the state it was placed in. -/
theorem withFetchWord_setQueue (s : State) (nbits w : Nat) :
    (s.withFetchWord nbits w).setQueue s.hostQueue = s := rfl

end Sys2Proof.Machine
end

section
/-! SUPPORT. The build parameters across a step (`spec/00_scope.md` R6): no operation writes them. -/

namespace Sys2Proof.Machine

@[simp] theorem succeed_config (s : State) : (succeed s).config = s.config := rfl

@[simp] theorem recordDecoded_config (v : Word) (c : Nat) (s : State) :
    (recordDecoded v c s).config = s.config := rfl

@[simp] theorem advanceOffset_config (c : Nat) (s : State) : (advanceOffset c s).config = s.config := rfl

@[simp] theorem powerOnReset_config (s : State) : (powerOnReset s).config = s.config := rfl

/-- No command writes the build parameters. -/
theorem exec_config {i : Instr} {s t : State} (h : exec i s = .next t) : t.config = s.config := by
  rcases exec_cases i s t h with ⟨-, rfl⟩ | ⟨-, rfl⟩ | ⟨-, v, c, -, rfl⟩ | ⟨-, v, c, -, rfl⟩ | ⟨-, e, -, rfl⟩ |
    ⟨-, v, rfl⟩ | ⟨-, rfl⟩ | ⟨-, rfl⟩ <;> simp

/-- No write to CMD writes the build parameters. -/
theorem commandWrite_config {d : Word} {s t : State} (h : commandWrite d s = .next t) : t.config = s.config := by
  rcases commandWrite_cases d s t h with ⟨i, -, hexec⟩ | ⟨e, -, rfl⟩
  · exact exec_config hexec
  · exact raise_config .illegalCommand s

/-- No bus write writes the build parameters. -/
theorem busWrite_config {a : BusAddr} {d : Word} {s t : State} (h : busWrite a d s = .next t) :
    t.config = s.config := by
  rcases busWrite_cases a d s t h with ⟨-, hcmd⟩ | rfl | rfl | rfl | ⟨j, -, -, rfl⟩ | rfl
  · exact commandWrite_config hcmd
  all_goals simp

/-- No step writes the build parameters (R6). -/
theorem step_config {s t : State} (h : step s = .next t) : t.config = s.config := by
  rcases step_cases s t h with ⟨-, rfl⟩ | ⟨a, rest, v, -, -, rfl⟩ | ⟨a, d, rest, -, hwrite⟩ | ⟨rest, -, rfl⟩
  · rfl
  · simp
  · simpa using busWrite_config hwrite
  · simp

end Sys2Proof.Machine

/-- The proofs a `Config` carries are what the check of a build size asks (R6). -/
theorem Sys2Proof.Config.legalIbufSize_ibufSize (c : Sys2Proof.Config) :
    Sys2Proof.legalIbufSize c.ibufSize = true := by
  simp [Sys2Proof.legalIbufSize, Nat.ble_eq, c.multipleOfEight, c.atLeast, c.atMost]

end

section
/-! The obligations of `spec/00_scope.md`. -/

open Sys2Proof Sys2Proof.Machine

/-- Settles O55: `step_config` for the parameters, and the proofs every `Config` carries for its size. -/
theorem buildParametersAreFixed : Obligations.BuildParametersAreFixed :=
  ⟨fun _ _ => step_config, fun s => s.config.legalIbufSize_ibufSize⟩

/-- Settles O1: a write to CMD goes through the decoder to `exec`, and `withFetchWord` queues such a write. -/
theorem stepRunsTheDecodedCommand : Obligations.StepRunsTheDecodedCommand := by
  refine ⟨fun _ _ _ _ => step_of_command, fun s i => ?_⟩
  rw [step_of_command (withFetchWord_hostQueue s (encode i)) (decode_encode i), withFetchWord_setQueue]

/-- Settles O2: the equation of a step for each kind of access, and for the empty queue. -/
theorem stepPerformsTheOldestEvent : Obligations.StepPerformsTheOldestEvent :=
  ⟨fun _ _ _ _ => step_of_read_ok, fun _ _ _ _ => step_of_read_error, fun _ _ _ _ => step_of_write,
    fun _ => step_of_empty_queue⟩

end

section
/-! SUPPORT. Varints as byte strings (`spec/40_varint_encoder.md` R100), and what the encode function makes: a varint
whose byte `i` carries bits `7i+6:7i` of the operand (R101), so that the bytes determine the operand. -/

namespace Sys2Proof.Machine

/-! ### The byte strings that are varints -/

/-- A terminator alone is a varint. -/
theorem isVarint_singleton {b : Byte} (hb : continues b = false) : IsVarint [b] :=
  ⟨by simp, by simp, by simp, by simpa using hb⟩

/-- A continuation byte before a varint of at most nine bytes makes a varint. -/
theorem isVarint_cons {b : Byte} {bs : List Byte} (hb : continues b = true) (hbs : IsVarint bs)
    (hlen : bs.length ≤ 9) : IsVarint (b :: bs) := by
  obtain ⟨hpos, -, hrun, hlast⟩ := hbs
  refine ⟨by simp, by simpa using Nat.lt_succ_of_le hlen, fun i hi => ?_, ?_⟩
  · cases i with
    | zero => simpa using hb
    | succ i =>
      rw [List.length_cons] at hi
      rw [List.getD_cons_succ]
      exact hrun i (by omega)
  · rw [List.length_cons, Nat.add_sub_cancel, ← Nat.sub_add_cancel hpos, List.getD_cons_succ]
    exact hlast

/-! ### The bytes the encoder emits -/

/-- The last group of an encoding has its continuation flag clear. -/
theorem continues_groupOf (v : Word) : continues (groupOf v) = false := by
  simp [continues, groupOf]

/-- Every group before the last has it set. -/
theorem continues_or_groupOf (v : Word) : continues (0x80#8 ||| groupOf v) = true := by
  simp [continues]

/-- The payload of the last group is the low 7 bits. -/
theorem payload_groupOf (v : Word) : payload (groupOf v) = v.extractLsb' 0 7 := by
  ext i hi
  simp [payload, groupOf, hi]
  omega

/-- So is the payload of a group before the last: the flag is no part of it. -/
theorem payload_or_groupOf (v : Word) : payload (0x80#8 ||| groupOf v) = v.extractLsb' 0 7 := by
  rw [← payload_groupOf]
  ext i hi
  interval_cases i <;> simp [payload]

/-! ### The encode loop -/

/-- An encoding that may take `k` groups, of a value that `k` groups hold, is a varint of at most `k` bytes. -/
theorem encodeLoop_isVarint {k : Nat} (hk : k ≤ 10) {v : Word} (hv : v.toNat < 2 ^ (7 * k)) (hpos : 1 ≤ k) :
    IsVarint (encodeLoop k v) ∧ (encodeLoop k v).length ≤ k := by
  induction k generalizing v with
  | zero => omega
  | succ k ih =>
    rw [encodeLoop]
    split
    case isFalse => exact ⟨isVarint_singleton (continues_groupOf v), by simp⟩
    case isTrue hmore =>
      have hshift : (v >>> 7).toNat = v.toNat / 2 ^ 7 := by
        rw [BitVec.toNat_ushiftRight, Nat.shiftRight_eq_div_pow]
      have hsmall : (v >>> 7).toNat < 2 ^ (7 * k) := by
        rw [hshift]
        exact Nat.div_lt_of_lt_mul (by rwa [← Nat.pow_add, show 7 + 7 * k = 7 * (k + 1) by omega])
      have hk0 : k ≠ 0 := by
        rintro rfl
        exact hmore (BitVec.eq_of_toNat_eq (by simpa using hsmall))
      obtain ⟨hvar, hlen⟩ := ih (by omega) hsmall (by omega)
      exact ⟨isVarint_cons (continues_or_groupOf v) hvar (by omega), by simpa using hlen⟩

/-- Byte `i` of an encoding carries bits `7i+6:7i` of the value; past its end those bits are zero. -/
theorem payload_encodeLoop {k i : Nat} (hi : i < k) (v : Word) :
    payload ((encodeLoop k v).getD i 0#8) = v.extractLsb' (7 * i) 7 := by
  induction k generalizing i v with
  | zero => omega
  | succ k ih =>
    have hshift : ∀ i, v.extractLsb' (7 * (i + 1)) 7 = (v >>> 7).extractLsb' (7 * i) 7 := by
      intro i
      ext j hj
      simp [show 7 * (i + 1) + j = 7 + (7 * i + j) by omega]
    rw [encodeLoop]
    cases i with
    | zero => split <;> simp [payload_groupOf, payload_or_groupOf]
    | succ i =>
      rw [hshift]
      split
      case isTrue => simpa using ih (by omega) (v >>> 7)
      case isFalse hdone =>
        rw [not_not.1 hdone]
        simp [payload]

/-! ### The encode function -/

/-- The encoder's output is a varint (R100, R101). -/
theorem varintEncode_isVarint (n : Word) : IsVarint (varintEncode n) :=
  (encodeLoop_isVarint (Nat.le_refl 10) (Nat.lt_trans n.isLt (by decide)) (by decide)).1

/-- An encoding's length fits ELEN (R24). -/
theorem varintEncode_length_toNat (n : Word) :
    (BitVec.ofNat 4 (varintEncode n).length).toNat = (varintEncode n).length := by
  obtain ⟨-, hmax, -⟩ := varintEncode_isVarint n
  exact Nat.mod_eq_of_lt (by omega)

/-- Two words with the same ten seven-bit groups are equal. -/
theorem eq_of_groups_eq {v w : Word} (h : ∀ i < 10, v.extractLsb' (7 * i) 7 = w.extractLsb' (7 * i) 7) : v = w := by
  apply BitVec.eq_of_getLsbD_eq
  intro j hj
  have hbit := congrArg (fun g => g.getLsbD (j % 7)) (h (j / 7) (by omega))
  have hlt : j % 7 < 7 := Nat.mod_lt _ (by decide)
  simpa [BitVec.getLsbD_extractLsb', hlt, Nat.div_add_mod] using hbit

/-- Different operands leave different bytes in EBUF (R21, R103). -/
theorem ebufOf_varintEncode_injective {v w : Word} (h : ebufOf (varintEncode v) = ebufOf (varintEncode w)) :
    v = w := by
  refine eq_of_groups_eq fun i hi => ?_
  have hbyte := congrArg (fun e : Vector Byte 10 => payload e[(⟨i, hi⟩ : Fin 10)]) h
  simp only [ebufOf_getElem] at hbyte
  rwa [varintEncode, varintEncode, payload_encodeLoop hi, payload_encodeLoop hi] at hbyte

/-- The first bytes of EBUF after an encoding, as many as it has, are the encoding. -/
theorem ebufOf_take {bs : List Byte} (h : bs.length ≤ 10) : (ebufOf bs).toList.take bs.length = bs := by
  apply List.ext_getElem
  · simpa using h
  · intro i h1 h2
    have := ebufOf_getElem bs ⟨i, by omega⟩
    simpa [h2] using this

end Sys2Proof.Machine
end

section
/-! SUPPORT. The ZigZag transforms bit by bit (`spec/42_zigzag.md` R150 to R153), at any width: encoding and decoding
undo each other, so each tells any two operands apart. -/

namespace Sys2Proof.Machine

/-! ### The two fills -/

/-- Shifting right by all bits but one, with the sign, fills the word with the sign bit (R150, R151). -/
theorem getLsbD_sshiftRight_sign {w j : Nat} (hj : j < w) (n : BitVec w) :
    (n.sshiftRight (w - 1)).getLsbD j = n.msb := by
  rw [BitVec.getLsbD_sshiftRight]
  by_cases h0 : j = 0
  · subst h0
    simp [BitVec.msb_eq_getLsbD_last, show w - 1 < w by omega, show w ≠ 0 by omega]
  · simp [hj, show ¬ w - 1 + j < w by omega]

/-- Negating the lowest bit fills the word with it (R152, R153). -/
theorem getLsbD_neg_and_one {w j : Nat} (hj : j < w) (u : BitVec w) : (-(u &&& 1#w)).getLsbD j = u.getLsbD 0 := by
  rw [BitVec.and_one_eq_setWidth_ofBool_getLsbD]
  cases u.getLsbD 0 with
  | false => simp
  | true =>
    have hone : (BitVec.ofBool true).setWidth w = 1#w := BitVec.eq_of_toNat_eq (by simp)
    rw [hone, BitVec.neg_one_eq_allOnes]
    simp [hj]

/-! ### Encoding and decoding undo each other -/

/-- The bits of a ZigZag encoding: the sign below, and each bit of the value, complemented for a negative one, above. -/
theorem getLsbD_zigzagEncode {w j : Nat} (hj : j < w) (n : BitVec w) :
    ((n <<< 1) ^^^ n.sshiftRight (w - 1)).getLsbD j = ((!decide (j = 0) && n.getLsbD (j - 1)) ^^ n.msb) := by
  rw [BitVec.getLsbD_xor, getLsbD_sshiftRight_sign hj, BitVec.getLsbD_shiftLeft]
  simp [hj]

/-- The bits of a ZigZag decoding: each bit above the lowest, complemented where that one is set. -/
theorem getLsbD_zigzagDecode {w j : Nat} (hj : j < w) (u : BitVec w) :
    ((u >>> 1) ^^^ -(u &&& 1#w)).getLsbD j = (u.getLsbD (1 + j) ^^ u.getLsbD 0) := by
  rw [BitVec.getLsbD_xor, getLsbD_neg_and_one hj, BitVec.getLsbD_ushiftRight]

/-- Decoding undoes encoding. -/
theorem zigzagDecode_zigzagEncode {w : Nat} (n u : BitVec w) (hu : u = (n <<< 1) ^^^ n.sshiftRight (w - 1)) :
    (u >>> 1) ^^^ -(u &&& 1#w) = n := by
  apply BitVec.eq_of_getLsbD_eq
  intro j hj
  have hsign : u.getLsbD 0 = n.msb := by
    rw [hu, getLsbD_zigzagEncode (by omega)]
    simp
  rw [getLsbD_zigzagDecode hj, hsign]
  by_cases hlast : 1 + j < w
  · rw [hu, getLsbD_zigzagEncode hlast]
    simp
  · obtain rfl : j = w - 1 := by omega
    rw [BitVec.getLsbD_of_ge _ _ (by omega)]
    simp [BitVec.msb_eq_getLsbD_last]

/-- Encoding undoes decoding. -/
theorem zigzagEncode_zigzagDecode {w : Nat} (u n : BitVec w) (hn : n = (u >>> 1) ^^^ -(u &&& 1#w)) :
    (n <<< 1) ^^^ n.sshiftRight (w - 1) = u := by
  apply BitVec.eq_of_getLsbD_eq
  intro j hj
  have hmsb : n.msb = u.getLsbD 0 := by
    rw [BitVec.msb_eq_getLsbD_last, hn, getLsbD_zigzagDecode (by omega), BitVec.getLsbD_of_ge _ _ (by omega)]
    simp
  rw [getLsbD_zigzagEncode hj, hmsb, hn]
  cases j with
  | zero => simp
  | succ j =>
    rw [Nat.add_sub_cancel, getLsbD_zigzagDecode (by omega), Nat.add_comm 1 j]
    simp

/-- Different operands of ZZE64 give different results. -/
theorem zzEnc64_injective {v w : Word} (h : zzEnc64 v = zzEnc64 w) : v = w := by
  rw [← zigzagDecode_zigzagEncode v _ rfl, ← zigzagDecode_zigzagEncode w _ rfl]
  exact congrArg zzDec64 h

/-- Different operands of ZZD64 give different results. -/
theorem zzDec64_injective {v w : Word} (h : zzDec64 v = zzDec64 w) : v = w := by
  rw [← zigzagEncode_zigzagDecode v _ rfl, ← zigzagEncode_zigzagDecode w _ rfl]
  exact congrArg zzEnc64 h

end Sys2Proof.Machine
end

section
/-! SUPPORT. How a decode ends (`spec/41_varint_decoder.md` R121 to R125): each answer of the decode function comes
with the condition on IBUF under which it is given, and the conditions exclude each other. -/

namespace Sys2Proof.Machine

/-! ### Runs of continuation bytes -/

/-- A continuation byte right after a run makes the run one longer. -/
theorem continuationRun_succ {m : Memory} {p n : Nat} {b : Byte} (hrun : ContinuationRun m p n)
    (hread : Memory.read m (p + n) = some b) (hb : continues b = true) : ContinuationRun m p (n + 1) := by
  intro i hi
  by_cases h : i = n
  · subst h
    simpa [hread] using hb
  · exact hrun i (by omega)

/-- A byte inside a run is written and has its continuation flag set. -/
theorem continues_of_continuationRun {m : Memory} {p n i : Nat} (hrun : ContinuationRun m p n) (hi : i < n) :
    ∃ b, Memory.read m (p + i) = some b ∧ continues b = true :=
  (Option.any_eq_true _ _).1 (hrun i hi)

/-! ### The answer of a decode and its condition -/

/-- The decode finds its terminator as byte `n`, inside the buffer, and a tenth byte fits in 64 bits (R121, R124). -/
def TerminatedAt (m : Memory) (p e n : Nat) : Prop :=
  n < 10 ∧ p + n < e ∧ ContinuationRun m p n ∧
    ∃ b, Memory.read m (p + n) = some b ∧ continues b = false ∧ (n = 9 → tenthByteOverflows b = false)

/-- The decode needs byte `n`, which lies in the buffer and is unwritten (R76, R125). -/
def UnwrittenAt (m : Memory) (p e n : Nat) : Prop :=
  n < 10 ∧ p + n < e ∧ ContinuationRun m p n ∧ Memory.read m (p + n) = none

/-- The condition under which a decode from `p` to `e` answers the given result (R122 to R125, R76). -/
def DecodeCondition (m : Memory) (p e : Nat) : DecodeResult → Prop
  | .ok _ c => ∃ n, c = n + 1 ∧ TerminatedAt m p e n
  | .err .truncatedInput => TruncatedAt m p e
  | .err .overflow => OverflowAt m p e
  | .err .illegalCommand => False
  | .unwritten k => ∃ n, k = p + n ∧ UnwrittenAt m p e n

/-- The loop at byte `i`, after `i` continuation bytes, answers only what the condition of its answer allows. -/
theorem decodeLoop_condition {m : Memory} {p e left i : Nat} (hleft : i + left = 10) (hi : i ≤ 9)
    (hrun : ContinuationRun m p i) (acc : Word) : DecodeCondition m p e (decodeLoop m p e left i acc) := by
  induction left generalizing i acc with
  | zero => omega
  | succ left ih =>
    rw [decodeLoop]
    split
    case isTrue hend => exact ⟨i, by omega, hend, hrun⟩
    case isFalse hend =>
      cases hread : Memory.read m (p + i) with
      | none => exact ⟨i, rfl, by omega, by omega, hrun, hread⟩
      | some b =>
        by_cases hover : i = 9 ∧ tenthByteOverflows b = true
        · obtain ⟨rfl, hb⟩ := hover
          simp only [hb, and_self, if_true]
          exact ⟨hrun, by omega, by rw [hread]; exact hb⟩
        · simp only [hover, if_false]
          split
          case isTrue hb =>
            have hne : i ≠ 9 := fun h => hover ⟨h, by simp [tenthByteOverflows, hb]⟩
            exact ih (by omega) (by omega) (continuationRun_succ hrun hread hb) _
          case isFalse hb =>
            exact ⟨i, rfl, by omega, by omega, hrun, b, hread, by simpa using hb, fun h => by simpa [h] using hover⟩

/-- A decode answers only what the condition of its answer allows. -/
theorem varintDecode_condition (m : Memory) (p e : Nat) : DecodeCondition m p e (varintDecode m p e) :=
  decodeLoop_condition rfl (by decide) (fun _ h => absurd h (Nat.not_lt_zero _)) _

/-! ### The conditions exclude each other -/

/-- A run cannot go on past a byte that is no written continuation byte. -/
theorem continuationRun_le {m : Memory} {p n i : Nat} (hrun : ContinuationRun m p n)
    (hstop : ∀ b, Memory.read m (p + i) = some b → continues b = false) : n ≤ i := by
  by_contra h
  obtain ⟨b, hread, hb⟩ := continues_of_continuationRun hrun (i := i) (by omega)
  rw [hstop b hread] at hb
  cases hb

/-- Where byte `n` ends the decode, inside the buffer, the buffer does not end too early. -/
theorem not_truncatedAt_of_stop {m : Memory} {p e n : Nat} (hin : p + n < e)
    (hstop : ∀ b, Memory.read m (p + n) = some b → continues b = false) : ¬ TruncatedAt m p e := by
  rintro ⟨i, -, hend, hrun⟩
  have := continuationRun_le hrun hstop
  omega

theorem TerminatedAt.not_truncatedAt {m : Memory} {p e n : Nat} (h : TerminatedAt m p e n) :
    ¬ TruncatedAt m p e := by
  obtain ⟨-, hin, -, b, hread, hb, -⟩ := h
  exact not_truncatedAt_of_stop hin (by simp [hread, hb])

theorem UnwrittenAt.not_truncatedAt {m : Memory} {p e n : Nat} (h : UnwrittenAt m p e n) :
    ¬ TruncatedAt m p e := by
  obtain ⟨-, hin, -, hread⟩ := h
  exact not_truncatedAt_of_stop hin (by simp [hread])

theorem OverflowAt.not_truncatedAt {m : Memory} {p e : Nat} (h : OverflowAt m p e) : ¬ TruncatedAt m p e := by
  obtain ⟨-, hin, -⟩ := h
  rintro ⟨i, hi, hend, -⟩
  omega

/-- A decode that overflows needs all of ten bytes, so byte `n` cannot end it unless `n` is 9. -/
theorem OverflowAt.eq_nine {m : Memory} {p e n : Nat} (h : OverflowAt m p e) (hn : n < 10)
    (hstop : ∀ b, Memory.read m (p + n) = some b → continues b = false) : n = 9 := by
  obtain ⟨hrun, -, -⟩ := h
  have := continuationRun_le hrun hstop
  omega

theorem TerminatedAt.not_overflowAt {m : Memory} {p e n : Nat} (h : TerminatedAt m p e n) :
    ¬ OverflowAt m p e := by
  obtain ⟨hn, -, -, b, hread, hb, hfits⟩ := h
  intro hover
  have h9 := hover.eq_nine hn (by simp [hread, hb])
  obtain ⟨-, -, htenth⟩ := hover
  subst h9
  rw [hread] at htenth
  exact Bool.false_ne_true ((hfits rfl).symm.trans htenth)

theorem UnwrittenAt.not_overflowAt {m : Memory} {p e n : Nat} (h : UnwrittenAt m p e n) : ¬ OverflowAt m p e := by
  obtain ⟨hn, -, -, hread⟩ := h
  intro hover
  have h9 := hover.eq_nine hn (by simp [hread])
  obtain ⟨-, -, htenth⟩ := hover
  subst h9
  simp [hread] at htenth

/-! ### The varint a decode consumed -/

/-- The bytes up to the terminator are a varint in IBUF (R100, R121). -/
theorem TerminatedAt.exists_varint {m : Memory} {p e n : Nat} (h : TerminatedAt m p e n) :
    ∃ bs, IsVarint bs ∧ bs.length = n + 1 ∧ BytesAt m p bs := by
  obtain ⟨hn, -, hrun, b, hread, hb, -⟩ := h
  have hwritten : ∀ i < n + 1, Memory.read m (p + i) ≠ none := fun i hi => by
    rcases Nat.lt_succ_iff_lt_or_eq.1 hi with hlt | rfl
    · obtain ⟨b', hread', -⟩ := continues_of_continuationRun hrun hlt
      simp [hread']
    · simp [hread]
  obtain ⟨bs, hbs⟩ := Option.ne_none_iff_exists'.1 fun hnone =>
    let ⟨i, hi, hun⟩ := (Memory.readRun_eq_none (n + 1) m p).1 hnone
    hwritten i hi hun
  obtain ⟨hlen, hbytes⟩ := (Memory.readRun_eq_some (n + 1) m p bs).1 hbs
  refine ⟨bs, ⟨by omega, by omega, fun i hi => ?_, ?_⟩, hlen, fun i hi => hbytes i (by omega)⟩
  · obtain ⟨b', hread', hb'⟩ := continues_of_continuationRun hrun (i := i) (by omega)
    rwa [Option.some.inj ((hbytes i (by omega)).symm.trans hread')]
  · rw [hlen, Nat.add_sub_cancel]
    rwa [Option.some.inj ((hbytes n (by omega)).symm.trans hread)]

/-! ### The two errors, exactly -/

/-- Where the condition of an error holds, no other answer's condition does. -/
theorem DecodeCondition.eq_err {m : Memory} {p e : Nat} {r : DecodeResult} {k : ErrorKind}
    (hr : DecodeCondition m p e r) (hk : DecodeCondition m p e (.err k)) : r = .err k := by
  cases k with
  | illegalCommand => exact hk.elim
  | truncatedInput =>
    match r, hr with
    | .ok _ _, ⟨_, _, hterm⟩ => exact absurd hk hterm.not_truncatedAt
    | .unwritten _, ⟨_, _, hun⟩ => exact absurd hk hun.not_truncatedAt
    | .err .truncatedInput, _ => rfl
    | .err .overflow, hover => exact absurd hk (OverflowAt.not_truncatedAt hover)
  | overflow =>
    match r, hr with
    | .ok _ _, ⟨_, _, hterm⟩ => exact absurd hk hterm.not_overflowAt
    | .unwritten _, ⟨_, _, hun⟩ => exact absurd hk hun.not_overflowAt
    | .err .truncatedInput, htrunc => exact absurd htrunc (OverflowAt.not_truncatedAt hk)
    | .err .overflow, _ => rfl

/-- The decode reports an error exactly on that error's condition. -/
theorem varintDecode_eq_err_iff (m : Memory) (p e : Nat) (k : ErrorKind) :
    varintDecode m p e = .err k ↔ DecodeCondition m p e (.err k) :=
  ⟨fun h => h ▸ varintDecode_condition m p e, fun h => (varintDecode_condition m p e).eq_err h⟩

/-- The decode answers TruncatedInput exactly on its condition (R122). -/
theorem varintDecode_truncatedInput_iff (m : Memory) (p e : Nat) :
    varintDecode m p e = .err .truncatedInput ↔ TruncatedAt m p e :=
  varintDecode_eq_err_iff m p e .truncatedInput

/-- The decode answers Overflow exactly on its condition (R123). -/
theorem varintDecode_overflow_iff (m : Memory) (p e : Nat) :
    varintDecode m p e = .err .overflow ↔ OverflowAt m p e :=
  varintDecode_eq_err_iff m p e .overflow

end Sys2Proof.Machine
end

section
/-! SUPPORT. What each command does, field by field: the reset state, the decoder's inverse, an equation per command,
and the write-set table of `spec/10_state.md` R39 as the one inversion of `exec`. -/

namespace Sys2Proof.Machine

/-! ### The reset state -/

section powerOn
variable (c : Config)
@[simp] theorem State.powerOn_config : (State.powerOn c).config = c := rfl
@[simp] theorem State.powerOn_inReg : (State.powerOn c).inReg = 0#64 := rfl
@[simp] theorem State.powerOn_out : (State.powerOn c).out = 0#64 := rfl
@[simp] theorem State.powerOn_cnt : (State.powerOn c).cnt = 0#4 := rfl
@[simp] theorem State.powerOn_elen : (State.powerOn c).elen = 0#4 := rfl
@[simp] theorem State.powerOn_offset : (State.powerOn c).offset = 0#16 := rfl
@[simp] theorem State.powerOn_ilen : (State.powerOn c).ilen = 0#16 := rfl
@[simp] theorem State.powerOn_status : (State.powerOn c).status = Status.reset := rfl
@[simp] theorem State.powerOn_ebuf : (State.powerOn c).ebuf = Vector.replicate 10 0#8 := rfl
@[simp] theorem State.powerOn_ibuf : (State.powerOn c).ibuf = [] := rfl
end powerOn

section powerOnReset
variable (s : State)
@[simp] theorem powerOnReset_inReg : (powerOnReset s).inReg = 0#64 := rfl
@[simp] theorem powerOnReset_out : (powerOnReset s).out = 0#64 := rfl
@[simp] theorem powerOnReset_cnt : (powerOnReset s).cnt = 0#4 := rfl
@[simp] theorem powerOnReset_elen : (powerOnReset s).elen = 0#4 := rfl
@[simp] theorem powerOnReset_offset : (powerOnReset s).offset = 0#16 := rfl
@[simp] theorem powerOnReset_ilen : (powerOnReset s).ilen = 0#16 := rfl
@[simp] theorem powerOnReset_status : (powerOnReset s).status = Status.reset := rfl
@[simp] theorem powerOnReset_ebuf : (powerOnReset s).ebuf = Vector.replicate 10 0#8 := rfl
@[simp] theorem powerOnReset_ibuf : (powerOnReset s).ibuf = [] := rfl
@[simp] theorem powerOnReset_hostQueue : (powerOnReset s).hostQueue = s.hostQueue := rfl
@[simp] theorem powerOnReset_hostReads : (powerOnReset s).hostReads = s.hostReads := rfl
end powerOnReset

/-! ### The error codes -/

/-- Every ERR code an error leaves is 1 to 3 (R26). -/
theorem ErrorKind.code_toNat (e : ErrorKind) : 1 ≤ e.code.toNat ∧ e.code.toNat ≤ 3 := by
  cases e <;> decide

/-- No error leaves ERR = NONE. -/
@[simp] theorem ErrorKind.code_ne_zero (e : ErrorKind) : e.code ≠ 0#4 := by
  cases e <;> decide

/-! ### From a command word to its command -/

/-- One row of the opcode table: its opcode selects its command, and any other opcode goes on to the next row. -/
theorem opcodeRow_eq_ok {p : Prop} [Decidable p] {i j : Instr} {rest : Except IllegalWord Instr}
    (h : (if p then .ok j else rest) = .ok i) : (p ∧ j = i) ∨ rest = .ok i := by
  by_cases hp : p
  · rw [if_pos hp] at h
    exact .inl ⟨hp, Except.ok.inj h⟩
  · rw [if_neg hp] at h
    exact .inr h

/-- The opcode of a command is its command word (R90). -/
theorem commandOfOpcode_eq_ok {op : Byte} {i : Instr} (h : commandOfOpcode op = .ok i) :
    op.setWidth 64 = encode i := by
  unfold commandOfOpcode at h
  iterate 10
    rcases opcodeRow_eq_ok h with ⟨rfl, rfl⟩ | h
    · rfl
  cases h

/-- A word whose reserved bits are zero is its opcode. -/
theorem setWidth_opcodeField {d : Word} (h : reservedField d = 0#56) : (opcodeField d).setWidth 64 = d := by
  apply BitVec.eq_of_toNat_eq
  have hhigh : d.toNat / 2 ^ 8 % 2 ^ 56 = 0 := by
    simpa [reservedField, BitVec.extractLsb'_toNat, Nat.shiftRight_eq_div_pow] using congrArg BitVec.toNat h
  simp only [opcodeField, BitVec.toNat_setWidth, BitVec.extractLsb'_toNat, Nat.shiftRight_zero]
  have := d.isLt
  omega

/-- A word decodes to a command exactly when it is that command's word (R87). -/
theorem decode_eq_ok_iff {d : Word} {i : Instr} : decode d = .ok i ↔ d = encode i := by
  constructor
  · intro h
    unfold decode at h
    split at h
    case isTrue => cases h
    case isFalse hres => rw [← setWidth_opcodeField (not_not.1 hres), commandOfOpcode_eq_ok h]
  · rintro rfl
    exact decode_encode i

/-- A write to CMD that answers a next state runs the command whose word it writes, or raises IllegalCommand for a
word that is no command's (R87, R173). -/
theorem busWrite_cmdAddr_cases {d : Word} {s t : State} (h : busWrite 0x001#13 d s = .next t) :
    (∃ i, d = encode i ∧ exec i s = .next t) ∨ ((∀ i, d ≠ encode i) ∧ t = raise .illegalCommand s) := by
  rw [busWrite_cmdAddr] at h
  rcases commandWrite_cases d s t h with ⟨i, hd, hexec⟩ | ⟨e, hd, rfl⟩
  · exact .inl ⟨i, decode_eq_ok_iff.1 hd, hexec⟩
  · refine .inr ⟨fun i hi => ?_, rfl⟩
    rw [hi, decode_encode] at hd
    cases hd

/-- A word that is no command's raises IllegalCommand (R173). -/
theorem busWrite_cmdAddr_illegal {d : Word} (hd : ∀ i, d ≠ encode i) (s : State) :
    busWrite 0x001#13 d s = .next (raise .illegalCommand s) := by
  rw [busWrite_cmdAddr, commandWrite]
  cases hdec : decode d with
  | ok i => exact absurd (decode_eq_ok_iff.1 hdec) (hd i)
  | error e => rfl

/-! ### An equation per command -/

theorem exec_nop (s : State) : exec .nop s = .next s := rfl

theorem exec_enc (s : State) : exec .enc s =
    .next (((s.setEbuf (ebufOf (varintEncode s.inReg))).setElen
      (BitVec.ofNat 4 (varintEncode s.inReg).length)).setStatus s.status.succeeded) := rfl

theorem exec_zze32 (s : State) : exec .zze32 s =
    .next ((s.setOut ((zzEnc32 (s.inReg.extractLsb' 0 32)).setWidth 64)).setStatus s.status.succeeded) := rfl

theorem exec_zze64 (s : State) : exec .zze64 s =
    .next ((s.setOut (zzEnc64 s.inReg)).setStatus s.status.succeeded) := rfl

theorem exec_zzd32 (s : State) : exec .zzd32 s =
    .next ((s.setOut ((zzDec32 (s.inReg.extractLsb' 0 32)).signExtend 64)).setStatus s.status.succeeded) := rfl

theorem exec_zzd64 (s : State) : exec .zzd64 s =
    .next ((s.setOut (zzDec64 s.inReg)).setStatus s.status.succeeded) := rfl

theorem exec_clrs (s : State) : exec .clrs s = .next (s.setStatus Status.cleared) := rfl

theorem exec_srst (s : State) : exec .srst s = .next ((powerOnReset s).setIbuf s.ibuf) := rfl

/-- A ZigZag command writes OUT and ERR (R154 to R157). -/
theorem exec_zigzag {i : Instr} (hi : i = .zze32 ∨ i = .zze64 ∨ i = .zzd32 ∨ i = .zzd64) (s : State) :
    ∃ v, exec i s = .next ((s.setOut v).setStatus s.status.succeeded) := by
  rcases hi with rfl | rfl | rfl | rfl
  exacts [⟨_, exec_zze32 s⟩, ⟨_, exec_zze64 s⟩, ⟨_, exec_zzd32 s⟩, ⟨_, exec_zzd64 s⟩]

/-! ### The two decode commands -/

/-- A decode that succeeds consumes 1 to 10 bytes, all below the buffer's end (R121). -/
theorem varintDecode_ok_bounds {m : Memory} {p e c : Nat} {v : Word} (h : varintDecode m p e = .ok v c) :
    1 ≤ c ∧ c ≤ 10 ∧ p + c ≤ e := by
  obtain ⟨hpos, hmax, hend⟩ := decodeLoop_ok_bounds m p e 10 0 0#64 v c h
  exact ⟨hpos, by omega, hend⟩

/-- The consumed count fits CNT (R23). -/
theorem consumed_toNat {c : Nat} (h : c ≤ 10) : (BitVec.ofNat 4 c).toNat = c :=
  Nat.mod_eq_of_lt (by omega)

/-- OFFSET does not wrap where the bytes it advances past lie below ILEN (R130). -/
theorem offset_add_consumed_toNat {s : State} {c : Nat} (h : s.offset.toNat + c ≤ s.ilen.toNat) :
    (s.offset + BitVec.ofNat 16 c).toNat = s.offset.toNat + c := by
  have := s.ilen.isLt
  rw [BitVec.toNat_add, BitVec.toNat_ofNat]
  omega

/-! ### What a command leaves -/

/-- The next states command `i` can leave from `s`: the write-set table of R39 by rows. A decode that succeeds records
its value and count and, for DECA, advances OFFSET (R126, R127); one that fails raises its error. -/
inductive CommandEffect (s : State) : Instr → State → Prop where
  | nop : CommandEffect s .nop s
  | enc : CommandEffect s .enc
      (((s.setEbuf (ebufOf (varintEncode s.inReg))).setElen
        (BitVec.ofNat 4 (varintEncode s.inReg).length)).setStatus s.status.succeeded)
  | decoded {i : Instr} (hi : i = .dec ∨ i = .deca) (v : Word) (c : Nat)
      (hok : varintDecode s.ibuf s.offset.toNat s.ilen.toNat = .ok v c) :
      CommandEffect s i { s with
        out := v
        cnt := BitVec.ofNat 4 c
        offset := if i = .deca then s.offset + BitVec.ofNat 16 c else s.offset
        status := s.status.terminated }
  | failed {i : Instr} (hi : i = .dec ∨ i = .deca) (e : ErrorKind) (hdecode : e.isDecodeError = true)
      (herr : varintDecode s.ibuf s.offset.toNat s.ilen.toNat = .err e) : CommandEffect s i (raise e s)
  | zigzag {i : Instr} (hi : i = .zze32 ∨ i = .zze64 ∨ i = .zzd32 ∨ i = .zzd64) (v : Word) :
      CommandEffect s i ((s.setOut v).setStatus s.status.succeeded)
  | clrs : CommandEffect s .clrs (s.setStatus Status.cleared)
  | srst : CommandEffect s .srst ((powerOnReset s).setIbuf s.ibuf)

/-- `exec` leaves nothing else. -/
theorem exec_effect {i : Instr} {s t : State} (h : exec i s = .next t) : CommandEffect s i t := by
  rcases exec_cases i s t h with ⟨rfl, rfl⟩ | ⟨rfl, rfl⟩ | ⟨rfl, v, c, hok, rfl⟩ | ⟨rfl, v, c, hok, rfl⟩ |
    ⟨hi, e, herr, rfl⟩ | ⟨hi, v, rfl⟩ | ⟨rfl, rfl⟩ | ⟨rfl, rfl⟩
  · exact .nop
  · exact .enc
  · exact .decoded (.inl rfl) v c hok
  · exact .decoded (.inr rfl) v c hok
  · exact .failed hi e (decodeLoop_err_kind _ _ _ _ _ _ _ herr) herr
  · exact .zigzag hi v
  · exact .clrs
  · exact .srst

/-- DEC and DECA record what they decoded or raise what the decode reported (R126, R127). -/
theorem exec_decode_cases {i : Instr} {s t : State} (hi : i = .dec ∨ i = .deca) (h : exec i s = .next t) :
    (∃ v c, varintDecode s.ibuf s.offset.toNat s.ilen.toNat = .ok v c ∧
      t = { s with
        out := v
        cnt := BitVec.ofNat 4 c
        offset := if i = .deca then s.offset + BitVec.ofNat 16 c else s.offset
        status := s.status.terminated }) ∨
    (∃ e, varintDecode s.ibuf s.offset.toNat s.ilen.toNat = .err e ∧ e.isDecodeError = true ∧ t = raise e s) := by
  cases exec_effect h with
  | decoded _ v c hok => exact .inl ⟨v, c, hok, rfl⟩
  | failed _ e hdecode herr => exact .inr ⟨e, herr, hdecode, rfl⟩
  | zigzag hz => rcases hz with rfl | rfl | rfl | rfl <;> simp at hi
  | _ => simp at hi

/-- Where the decode reports an error, DEC and DECA raise it. -/
theorem exec_decode_of_err {i : Instr} {s : State} {e : ErrorKind} (hi : i = .dec ∨ i = .deca)
    (herr : varintDecode s.ibuf s.offset.toNat s.ilen.toNat = .err e) : exec i s = .next (raise e s) := by
  have hcommand : ∀ onOk, decodeCommand onOk s = .next (raise e s) := fun onOk => by
    simp only [decodeCommand, decodeStart, decodeEnd, herr]
  rcases hi with rfl | rfl
  · exact hcommand recordDecoded
  · exact hcommand fun v c s => advanceOffset c (recordDecoded v c s)

end Sys2Proof.Machine
end

section
/-! SUPPORT. The word addresses of the registers (`spec/20_memory.md` R63), and what a bus write and a step leave of
the results: STATUS, OUT, CNT, ELEN and EBUF change only by a command and by power-on reset (`spec/10_state.md` R39,
`spec/70_reset_and_hazards.md` R232). -/

namespace Sys2Proof.Machine

/-! ### The register addresses -/

section registerAddresses
variable (c : Config)
@[simp] theorem busTarget_idAddr : busTarget c 0x000#13 = .id := busTarget_regName c .id
@[simp] theorem busTarget_statusAddr : busTarget c 0x002#13 = .status := busTarget_regName c .status
@[simp] theorem busTarget_inAddr : busTarget c 0x003#13 = .inReg := busTarget_regName c .inReg
@[simp] theorem busTarget_outAddr : busTarget c 0x004#13 = .out := busTarget_regName c .out
@[simp] theorem busTarget_cntAddr : busTarget c 0x005#13 = .cnt := busTarget_regName c .cnt
@[simp] theorem busTarget_elenAddr : busTarget c 0x006#13 = .elen := busTarget_regName c .elen
@[simp] theorem busTarget_offsetAddr : busTarget c 0x007#13 = .offset := busTarget_regName c .offset
@[simp] theorem busTarget_ilenAddr : busTarget c 0x008#13 = .ilen := busTarget_regName c .ilen
@[simp] theorem busTarget_ebuf0Addr : busTarget c 0x010#13 = .ebuf0 := busTarget_regName c .ebuf0
@[simp] theorem busTarget_ebuf1Addr : busTarget c 0x011#13 = .ebuf1 := busTarget_regName c .ebuf1
end registerAddresses

section registerReads
variable (s : State)
theorem busRead_idAddr : busRead s 0x000#13 = .ok (idWord s.config) := by simp only [busRead, busTarget_idAddr]
theorem busRead_statusAddr : busRead s 0x002#13 = .ok s.status.word := by simp only [busRead, busTarget_statusAddr]
theorem busRead_inAddr : busRead s 0x003#13 = .ok s.inReg := by simp only [busRead, busTarget_inAddr]
theorem busRead_cntAddr : busRead s 0x005#13 = .ok (s.cnt.setWidth 64) := by simp only [busRead, busTarget_cntAddr]
theorem busRead_elenAddr : busRead s 0x006#13 = .ok (s.elen.setWidth 64) := by
  simp only [busRead, busTarget_elenAddr]
end registerReads

section registerWrites
variable (d : Word) (s : State)
theorem busWrite_idAddr : busWrite 0x000#13 d s = .next s := by simp only [busWrite, busTarget_idAddr]
theorem busWrite_statusAddr : busWrite 0x002#13 d s = .next s := by simp only [busWrite, busTarget_statusAddr]
theorem busWrite_inAddr : busWrite 0x003#13 d s = .next (s.setIn d) := by simp only [busWrite, busTarget_inAddr]
theorem busWrite_cntAddr : busWrite 0x005#13 d s = .next s := by simp only [busWrite, busTarget_cntAddr]
theorem busWrite_elenAddr : busWrite 0x006#13 d s = .next s := by simp only [busWrite, busTarget_elenAddr]
theorem busWrite_offsetAddr : busWrite 0x007#13 d s = .next (s.setOffset (clampToIbuf s.config d)) := by
  simp only [busWrite, busTarget_offsetAddr]
theorem busWrite_ilenAddr : busWrite 0x008#13 d s = .next (s.setIlen (clampToIbuf s.config d)) := by
  simp only [busWrite, busTarget_ilenAddr]
end registerWrites

/-! ### Where the results change -/

/-- The registers and the buffer that only commands write are the same (R232). -/
structure SameResults (s t : State) : Prop where
  out : t.out = s.out
  cnt : t.cnt = s.cnt
  elen : t.elen = s.elen
  status : t.status = s.status
  ebuf : t.ebuf = s.ebuf

/-- A write to any address but CMD keeps the results. -/
theorem busWrite_sameResults {a : BusAddr} {d : Word} {s t : State} (ha : a ≠ 0x001#13)
    (h : busWrite a d s = .next t) : SameResults s t := by
  rcases busWrite_cases a d s t h with ⟨hcmd, -⟩ | rfl | rfl | rfl | ⟨j, -, -, rfl⟩ | rfl
  · exact absurd hcmd ha
  all_goals exact ⟨rfl, rfl, rfl, rfl, rfl⟩

/-- A read keeps the results. -/
theorem performAccess_read_sameResults {a : BusAddr} {s t : State} (h : performAccess (.read a) s = .next t) :
    SameResults s t := by
  unfold performAccess at h
  cases hr : busRead s a with
  | ok v =>
    simp only [hr] at h
    cases h
    exact ⟨rfl, rfl, rfl, rfl, rfl⟩
  | error f =>
    simp only [hr] at h
    cases h

/-- A step keeps the results unless it writes CMD or is power-on reset. -/
theorem step_results_cases {s t : State} (h : step s = .next t) :
    (∃ d rest, s.hostQueue = .access (.write 0x001#13 d) :: rest ∧
      busWrite 0x001#13 d (s.setQueue rest) = .next t) ∨
    (∃ rest, s.hostQueue = .powerOnReset :: rest ∧ t = powerOnReset (s.setQueue rest)) ∨
    SameResults s t := by
  rcases step_cases s t h with ⟨-, rfl⟩ | ⟨a, rest, v, -, -, rfl⟩ | ⟨a, d, rest, hq, hwrite⟩ | ⟨rest, hq, rfl⟩
  · exact .inr (.inr ⟨rfl, rfl, rfl, rfl, rfl⟩)
  · exact .inr (.inr ⟨rfl, rfl, rfl, rfl, rfl⟩)
  · by_cases ha : a = 0x001#13
    · subst ha
      exact .inl ⟨d, rest, hq, hwrite⟩
    · obtain ⟨hout, hcnt, helen, hstatus, hebuf⟩ := busWrite_sameResults ha hwrite
      exact .inr (.inr ⟨hout, hcnt, helen, hstatus, hebuf⟩)
  · exact .inr (.inl ⟨rest, hq, rfl⟩)

/-- A property of the results is kept by every step when it holds after power-on reset and every command and the
illegal command keep it. -/
theorem step_keeps_of_results {P : State → Prop} (results : ∀ {s t}, SameResults s t → P s → P t)
    (reset : ∀ s, P (powerOnReset s)) (illegal : ∀ s, P s → P (raise .illegalCommand s))
    (command : ∀ {i s t}, exec i s = .next t → P s → P t) {s t : State} (hs : P s) (h : step s = .next t) : P t := by
  rcases step_results_cases h with ⟨d, rest, -, hwrite⟩ | ⟨rest, -, rfl⟩ | hsame
  · have hq : P (s.setQueue rest) := results (s := s) ⟨rfl, rfl, rfl, rfl, rfl⟩ hs
    rcases busWrite_cmdAddr_cases hwrite with ⟨i, -, hexec⟩ | ⟨-, rfl⟩
    · exact command hexec hq
    · exact illegal _ hq
  · exact reset _
  · exact results hsame hs

end Sys2Proof.Machine
end

section
/-! SUPPORT. The invariant of the block, part by part: what every command makes of CNT and ELEN (R23, R24), of STATUS
(R26 to R29), of EBUF (R34), of OFFSET and ILEN (R41) and of IBUF (R68, R76), and that every step keeps each part. -/

namespace Sys2Proof.Machine

/-! ### What no command writes -/

/-- No command touches the host's fields or the build parameters (R39). -/
theorem exec_sameHost {i : Instr} {s t : State} (h : exec i s = .next t) : SameHost s t := by
  cases exec_effect h with
  | decoded => exact ⟨rfl, rfl, rfl⟩
  | _ => simp [SameHost]

/-- No command writes IBUF (R39). -/
theorem exec_ibuf {i : Instr} {s t : State} (h : exec i s = .next t) : t.ibuf = s.ibuf := by
  cases exec_effect h <;> simp

/-- Every IBUF byte reads the same after a command. -/
theorem exec_sameIbuf {i : Instr} {s t : State} (h : exec i s = .next t) : SameIbuf s t :=
  fun _ => by rw [exec_ibuf h]

/-- No command writes IN but SRST, which clears it (R21). -/
theorem exec_inReg {i : Instr} {s t : State} (h : exec i s = .next t) :
    t.inReg = if i = .srst then 0#64 else s.inReg := by
  cases exec_effect h with
  | decoded hi => rcases hi with rfl | rfl <;> simp
  | failed hi => rcases hi with rfl | rfl <;> simp
  | zigzag hi => rcases hi with rfl | rfl | rfl | rfl <;> simp
  | _ => simp

/-! ### CNT and ELEN -/

/-- Only DEC, DECA and SRST write CNT (R23). -/
theorem exec_cnt {i : Instr} {s t : State} (h : exec i s = .next t) (hdec : i ≠ .dec) (hdeca : i ≠ .deca)
    (hsrst : i ≠ .srst) : t.cnt = s.cnt := by
  cases exec_effect h with
  | decoded hi => exact (hi.elim hdec hdeca).elim
  | failed hi => exact (hi.elim hdec hdeca).elim
  | srst => exact absurd rfl hsrst
  | _ => simp

/-- Only ENC and SRST write ELEN (R24). -/
theorem exec_elen {i : Instr} {s t : State} (h : exec i s = .next t) (henc : i ≠ .enc) (hsrst : i ≠ .srst) :
    t.elen = s.elen := by
  cases exec_effect h with
  | enc => exact absurd rfl henc
  | srst => exact absurd rfl hsrst
  | _ => simp

/-- No command makes ELEN 0 but SRST: an encoding has at least one byte (R24). -/
theorem exec_elen_ne_zero {i : Instr} {s t : State} (h : exec i s = .next t) (hsrst : i ≠ .srst) (hs : s.elen ≠ 0#4) :
    t.elen ≠ 0#4 := by
  by_cases henc : i = .enc
  · subst henc
    cases (exec_enc s).symm.trans h
    intro hzero
    obtain ⟨hpos, -⟩ := varintEncode_isVarint s.inReg
    have hlen := varintEncode_length_toNat s.inReg
    rw [show BitVec.ofNat 4 (varintEncode s.inReg).length = 0#4 from hzero, BitVec.toNat_ofNat] at hlen
    omega
  · rwa [exec_elen h henc hsrst]

/-- Every command leaves CNT at most 10 (R23). -/
theorem exec_cnt_le {i : Instr} {s t : State} (h : exec i s = .next t) (hs : s.cnt.toNat ≤ 10) :
    t.cnt.toNat ≤ 10 := by
  cases exec_effect h with
  | decoded _ v c hok =>
    obtain ⟨-, hmax, -⟩ := varintDecode_ok_bounds hok
    exact (consumed_toNat hmax).trans_le hmax
  | failed _ e he => simp [he]
  | _ => simp [hs]

/-- Every command leaves ELEN at most 10 (R24). -/
theorem exec_elen_le {i : Instr} {s t : State} (h : exec i s = .next t) (hs : s.elen.toNat ≤ 10) :
    t.elen.toNat ≤ 10 := by
  cases exec_effect h with
  | enc =>
    obtain ⟨-, hmax, -⟩ := varintEncode_isVarint s.inReg
    exact (varintEncode_length_toNat s.inReg).trans_le hmax
  | _ => simp [hs]

/-- Every step keeps CNT at most 10 (R23). -/
theorem step_cnt_le {s t : State} (hs : s.cnt.toNat ≤ 10) (h : step s = .next t) : t.cnt.toNat ≤ 10 :=
  step_keeps_of_results (P := fun s => s.cnt.toNat ≤ 10) (fun hsame hs => hsame.cnt ▸ hs) (by simp)
    (fun _ hs => hs) exec_cnt_le hs h

/-- Every step keeps ELEN at most 10 (R24). -/
theorem step_elen_le {s t : State} (hs : s.elen.toNat ≤ 10) (h : step s = .next t) : t.elen.toNat ≤ 10 :=
  step_keeps_of_results (P := fun s => s.elen.toNat ≤ 10) (fun hsame hs => hsame.elen ▸ hs) (by simp)
    (fun _ hs => hs) exec_elen_le hs h

/-! ### STATUS -/

/-- Every command leaves DSTATE other than 3 (R29). -/
theorem exec_dstate_ne {i : Instr} {s t : State} (h : exec i s = .next t) (hs : s.status.dstate ≠ 3#2) :
    t.status.dstate ≠ 3#2 := by
  cases exec_effect h with
  | failed _ e he => simp [he]
  | _ => simp [hs]

/-- Every command leaves ERR at most 3 (R29). -/
theorem exec_err_le {i : Instr} {s t : State} (h : exec i s = .next t) (hs : s.status.err.toNat ≤ 3) :
    t.status.err.toNat ≤ 3 := by
  cases exec_effect h with
  | failed _ e => simpa using e.code_toNat.2
  | _ => simp [hs]

/-- Every step keeps DSTATE other than 3 (R29). -/
theorem step_dstate_ne {s t : State} (hs : s.status.dstate ≠ 3#2) (h : step s = .next t) :
    t.status.dstate ≠ 3#2 :=
  step_keeps_of_results (P := fun s => s.status.dstate ≠ 3#2) (fun hsame hs => hsame.status ▸ hs) (by simp)
    (fun _ hs => hs) exec_dstate_ne hs h

/-- Every step keeps ERR at most 3 (R29). -/
theorem step_err_le {s t : State} (hs : s.status.err.toNat ≤ 3) (h : step s = .next t) :
    t.status.err.toNat ≤ 3 :=
  step_keeps_of_results (P := fun s => s.status.err.toNat ≤ 3) (fun hsame hs => hsame.status ▸ hs) (by simp)
    (fun _ _ => (ErrorKind.code_toNat .illegalCommand).2) exec_err_le hs h

/-- A command other than NOP that leaves an error sets STICKY (R28). -/
theorem exec_sticky_of_err {i : Instr} {s t : State} (h : exec i s = .next t) (hnop : i ≠ .nop)
    (herr : t.status.err ≠ 0#4) : t.status.sticky = true := by
  cases exec_effect h with
  | nop => exact absurd rfl hnop
  | failed => simp
  | _ => simp at herr

/-- Only CLRS and SRST clear STICKY (R28). -/
theorem exec_sticky_stays {i : Instr} {s t : State} (h : exec i s = .next t) (hclrs : i ≠ .clrs) (hsrst : i ≠ .srst)
    (hs : s.status.sticky = true) : t.status.sticky = true := by
  cases exec_effect h with
  | clrs => exact absurd rfl hclrs
  | srst => exact absurd rfl hsrst
  | _ => simp [hs]

/-- Only DEC, DECA, CLRS and SRST write DSTATE (R27). -/
theorem exec_dstate {i : Instr} {s t : State} (h : exec i s = .next t) (hdec : i ≠ .dec) (hdeca : i ≠ .deca)
    (hclrs : i ≠ .clrs) (hsrst : i ≠ .srst) : t.status.dstate = s.status.dstate := by
  cases exec_effect h with
  | decoded hi => exact (hi.elim hdec hdeca).elim
  | failed hi => exact (hi.elim hdec hdeca).elim
  | clrs => exact absurd rfl hclrs
  | srst => exact absurd rfl hsrst
  | _ => simp

/-- Every command keeps STATUS legal: a success leaves no error to be marked, a decode that ends leaves the count its
DSTATE asks for, an error sets STICKY. -/
theorem exec_statusLegal {i : Instr} {s t : State} (h : exec i s = .next t) (hs : StatusLegal s) : StatusLegal t := by
  obtain ⟨hdstate, herr, hsticky, herror, hterm⟩ := hs
  refine ⟨exec_dstate_ne h hdstate, exec_err_le h herr, ?_⟩
  cases exec_effect h with
  | nop => exact ⟨hsticky, herror, hterm⟩
  | enc => exact ⟨by simp, herror, hterm⟩
  | decoded _ v c hok =>
    obtain ⟨hpos, hmax, -⟩ := varintDecode_ok_bounds hok
    exact ⟨by simp, by simp, fun _ => (consumed_toNat hmax).symm ▸ hpos⟩
  | failed _ e he => simp [he]
  | zigzag => exact ⟨by simp, herror, hterm⟩
  | clrs => simp
  | srst => simp

/-- The illegal command keeps STATUS legal: it marks its error in STICKY and leaves DSTATE and CNT. -/
theorem raise_illegalCommand_statusLegal {s : State} (hs : StatusLegal s) :
    StatusLegal (raise .illegalCommand s) := by
  obtain ⟨hne, -, -, herror, hterm⟩ := hs
  exact ⟨hne, (ErrorKind.code_toNat .illegalCommand).2, fun _ => rfl, fun h => ⟨rfl, (herror h).2⟩, hterm⟩

/-- Every step keeps STATUS legal. -/
theorem step_statusLegal {s t : State} (hs : StatusLegal s) (h : step s = .next t) : StatusLegal t :=
  step_keeps_of_results (P := StatusLegal)
    (fun hsame hs => by simpa only [StatusLegal, hsame.status, hsame.cnt] using hs) (fun _ => by simp [StatusLegal])
    (fun _ => raise_illegalCommand_statusLegal) exec_statusLegal hs h

/-! ### EBUF -/

/-- After ENC, EBUF holds the encoding, a varint of ELEN bytes, and zeros (R34, R103). -/
theorem ebufLegal_of_encoding {s : State} (n : Word) (hebuf : s.ebuf = ebufOf (varintEncode n))
    (helen : s.elen = BitVec.ofNat 4 (varintEncode n).length) : EbufLegal s := by
  obtain ⟨-, hmax, -⟩ := varintEncode_isVarint n
  have hlen : s.elen.toNat = (varintEncode n).length := helen ▸ varintEncode_length_toNat n
  refine ⟨fun k hk => ?_, fun _ => ?_⟩
  · rw [hebuf, ebufOf_getElem, List.getD_eq_default _ _ (hlen ▸ hk)]
  · rw [hebuf, hlen, ebufOf_take hmax]
    exact varintEncode_isVarint n

/-- An EBUF of zeros is legal with ELEN = 0 (R40). -/
theorem ebufLegal_of_cleared {s : State} (hebuf : s.ebuf = Vector.replicate 10 0#8) (helen : s.elen = 0#4) :
    EbufLegal s :=
  ⟨fun k _ => by simp [hebuf], by simp [helen]⟩

/-- EBUF is legal where it and ELEN are as in a state where it is. -/
theorem EbufLegal.of_eq {s t : State} (hs : EbufLegal s) (hebuf : t.ebuf = s.ebuf) (helen : t.elen = s.elen) :
    EbufLegal t := by
  rwa [EbufLegal, hebuf, helen]

/-- Every command keeps EBUF legal. -/
theorem exec_ebufLegal {i : Instr} {s t : State} (h : exec i s = .next t) (hs : EbufLegal s) : EbufLegal t := by
  cases exec_effect h with
  | enc => exact ebufLegal_of_encoding s.inReg rfl rfl
  | srst => exact ebufLegal_of_cleared rfl rfl
  | _ => exact hs.of_eq (by simp) (by simp)

/-- Every step keeps EBUF legal. -/
theorem step_ebufLegal {s t : State} (hs : EbufLegal s) (h : step s = .next t) : EbufLegal t :=
  step_keeps_of_results (fun hsame hs => hs.of_eq hsame.ebuf hsame.elen) (fun _ => ebufLegal_of_cleared rfl rfl)
    (fun _ hs => hs.of_eq rfl rfl) exec_ebufLegal hs h

/-! ### OFFSET and ILEN -/

/-- Every command keeps OFFSET and ILEN within IBUF: DECA advances OFFSET at most to ILEN (R41, R130). -/
theorem exec_offsetsBounded {i : Instr} {s t : State} (h : exec i s = .next t) (hs : OffsetsBounded s) :
    OffsetsBounded t := by
  obtain ⟨hoffset, hilen⟩ := hs
  cases exec_effect h with
  | decoded _ v c hok =>
    obtain ⟨-, -, hend⟩ := varintDecode_ok_bounds hok
    refine ⟨?_, hilen⟩
    show (if i = .deca then s.offset + BitVec.ofNat 16 c else s.offset).toNat ≤ s.config.ibufSize
    split
    · rw [offset_add_consumed_toNat hend]
      exact hend.trans hilen
    · exact hoffset
  | srst => simp [OffsetsBounded]
  | _ => simp [OffsetsBounded, hoffset, hilen]

/-- Every bus write keeps OFFSET and ILEN within IBUF (R42, R43). -/
theorem busWrite_offsetsBounded {a : BusAddr} {d : Word} {s t : State} (h : busWrite a d s = .next t)
    (hs : OffsetsBounded s) : OffsetsBounded t := by
  have hclamp : (clampToIbuf s.config d).toNat ≤ s.config.ibufSize :=
    (clampToIbuf_toNat s.config d).trans_le (Nat.min_le_right _ _)
  have ⟨hoffset, hilen⟩ := hs
  rcases busWrite_cases a d s t h with ⟨rfl, -⟩ | rfl | rfl | rfl | ⟨j, -, -, rfl⟩ | rfl
  · rcases busWrite_cmdAddr_cases h with ⟨i, -, hexec⟩ | ⟨-, rfl⟩
    · exact exec_offsetsBounded hexec hs
    · exact hs
  · exact hs
  · exact ⟨hclamp, hilen⟩
  · exact ⟨hoffset, hclamp⟩
  · exact hs
  · exact hs

/-- Every step keeps OFFSET and ILEN within IBUF (R41). -/
theorem step_offsetsBounded {s t : State} (hs : OffsetsBounded s) (h : step s = .next t) : OffsetsBounded t := by
  rcases step_cases s t h with ⟨-, rfl⟩ | ⟨a, rest, v, -, -, rfl⟩ | ⟨a, d, rest, -, hwrite⟩ | ⟨rest, -, rfl⟩
  · exact hs
  · exact hs
  · exact busWrite_offsetsBounded hwrite hs
  · simp [OffsetsBounded]

/-! ### IBUF -/

/-- A word write inside IBUF keeps it canonical, below IBUF_SIZE and written by whole words (R68, R76). -/
theorem writeWord_ibufLegal {s : State} {j : Nat} (hj : j < s.config.ibufWords) (d : Word) (hs : IbufLegal s) :
    IbufLegal (s.setIbuf (Memory.writeWord s.ibuf j d)) := by
  obtain ⟨hwf, hcells⟩ := hs
  have hsize : 8 * j + 8 ≤ s.config.ibufSize := by
    unfold Config.ibufWords at hj
    omega
  refine ⟨Memory.writeWord_wf _ _ _ hwf, fun c hc => ?_⟩
  rw [State.setIbuf_ibuf] at hc
  simp only [State.setIbuf_config, State.setIbuf_ibuf, Memory.read_writeWord]
  rcases Memory.mem_writeRun _ _ _ _ hc with hnew | hold
  · rw [unpackWord_length] at hnew
    refine ⟨by omega, fun i hi => ?_⟩
    rw [if_pos (by omega)]
    rfl
  · obtain ⟨hlt, hword⟩ := hcells c hold
    refine ⟨hlt, fun i hi => ?_⟩
    split
    · rfl
    · exact hword i hi

/-- Every bus write keeps IBUF legal. -/
theorem busWrite_ibufLegal {a : BusAddr} {d : Word} {s t : State} (h : busWrite a d s = .next t)
    (hs : IbufLegal s) : IbufLegal t := by
  rcases busWrite_cases a d s t h with ⟨rfl, -⟩ | rfl | rfl | rfl | ⟨j, -, hj, rfl⟩ | rfl
  · rcases busWrite_cmdAddr_cases h with ⟨i, -, hexec⟩ | ⟨-, rfl⟩
    · rwa [IbufLegal, exec_ibuf hexec, exec_config hexec]
    · exact hs
  · exact hs
  · exact hs
  · exact hs
  · exact writeWord_ibufLegal hj d hs
  · exact hs

/-- Every step keeps IBUF legal. -/
theorem step_ibufLegal {s t : State} (hs : IbufLegal s) (h : step s = .next t) : IbufLegal t := by
  rcases step_cases s t h with ⟨-, rfl⟩ | ⟨a, rest, v, -, -, rfl⟩ | ⟨a, d, rest, -, hwrite⟩ | ⟨rest, -, rfl⟩
  · exact hs
  · exact hs
  · exact busWrite_ibufLegal hwrite hs
  · simp [IbufLegal]

/-! ### The whole invariant -/

/-- The invariant holds after power-on reset of every build (R40). -/
theorem powerOn_inv (c : Config) : Inv (State.powerOn c) :=
  ⟨by simp [OffsetsBounded], by simp [CountsLegal], by simp [StatusLegal], ebufLegal_of_cleared rfl rfl,
    by simp [IbufLegal]⟩

/-- The block right after reset, but for OFFSET, which the host has set to 1, above ILEN. -/
def offsetAboveIlen : State := State.reset.setOffset 1#16

/-- The invariant leaves OFFSET free to lie above ILEN (R41). -/
theorem offsetAboveIlen_inv : Inv offsetAboveIlen := by
  obtain ⟨-, hrest⟩ := powerOn_inv Config.standard
  exact ⟨by decide, hrest⟩

/-- Every step keeps the invariant. -/
theorem step_inv {s t : State} (hs : Inv s) (h : step s = .next t) : Inv t := by
  obtain ⟨hoffsets, ⟨hcnt, helen⟩, hstatus, hebuf, hibuf⟩ := hs
  exact ⟨step_offsetsBounded hoffsets h, ⟨step_cnt_le hcnt h, step_elen_le helen h⟩, step_statusLegal hstatus h,
    step_ebufLegal hebuf h, step_ibufLegal hibuf h⟩

end Sys2Proof.Machine
end

section
/-! SUPPORT. What the words the host reads hold: the fields of STATUS and ID (`spec/10_state.md` R25, R30), and that
every register of a cleared block reads 0 (R40). -/

namespace Sys2Proof.Machine

/-- Where the other fields of STATUS lie in the word a read returns, and its reserved bits (R25, R29). -/
theorem Status.word_fields (st : Status) :
    st.word.extractLsb' 0 2 = st.dstate ∧ st.word.extractLsb' 2 2 = 0#2 ∧ st.word.getLsbD 8 = st.sticky ∧
      st.word.extractLsb' 9 55 = 0#55 := by
  obtain ⟨d, e, k⟩ := st
  unfold Status.word
  revert d e k
  decide

/-- The fields of ID (R30). -/
theorem idWord_fields (c : Config) :
    (idWord c).extractLsb' 32 32 = 0x56415249#32 ∧ (idWord c).extractLsb' 24 8 = 0#8 ∧
      (idWord c).extractLsb' 16 8 = 0x01#8 ∧ ((idWord c).extractLsb' 0 16).toNat = c.ibufSize := by
  have hsize : (BitVec.ofNat 16 c.ibufSize).toNat = c.ibufSize :=
    Nat.mod_eq_of_lt (Nat.lt_of_le_of_lt c.atMost (by decide))
  unfold idWord
  refine ⟨?_, ?_, ?_, ?_⟩
  · rw [BitVec.extractLsb'_append_eq_of_le (by decide)]
    rfl
  · rw [BitVec.extractLsb'_append_eq_of_le (by decide)]
    rfl
  · rw [BitVec.extractLsb'_append_eq_of_le (by decide)]
    rfl
  · rw [BitVec.extractLsb'_append_eq_right, hsize]

/-- Every register the host can read holds 0, EBUF included, as after power-on reset and SRST (R40). -/
structure RegistersCleared (s : State) : Prop where
  inReg : s.inReg = 0#64
  out : s.out = 0#64
  cnt : s.cnt = 0#4
  elen : s.elen = 0#4
  offset : s.offset = 0#16
  ilen : s.ilen = 0#16
  status : s.status = Status.reset
  ebuf : s.ebuf = Vector.replicate 10 0#8

/-- A conditional differs from what both its branches differ from. -/
theorem ite_ne_of_ne {α : Type} {p : Prop} [Decidable p] {x y z : α} (hx : x ≠ z) (hy : y ≠ z) :
    (if p then x else y) ≠ z :=
  iteInduction (motive := (· ≠ z)) (fun _ => hx) fun _ => hy

/-- Only its own address names ID (R63). -/
theorem registerTarget_ne_id {a : BusAddr} (ha : a ≠ 0x000#13) : registerTarget a ≠ .id := by
  rw [registerTarget, if_neg ha]
  iterate 10 refine ite_ne_of_ne (by decide) ?_
  decide

/-- In a cleared block every word below the IBUF window reads 0, but ID (R40). -/
theorem RegistersCleared.busRead {s : State} (hs : RegistersCleared s) {a : BusAddr} (hpos : 0x001 ≤ a.toNat)
    (hlow : a.toNat ≤ 0x011) : busRead s a = .ok 0#64 := by
  have htarget : busTarget s.config a = registerTarget a :=
    busTarget_register _ _ (.inl (Nat.lt_of_le_of_lt hlow (by decide)))
  rw [Machine.busRead, htarget]
  cases hr : registerTarget a with
  | id =>
    refine absurd hr (registerTarget_ne_id ?_)
    rintro rfl
    exact absurd hpos (by decide)
  | ibufWord j => exact absurd hr (registerTarget_ne_ibufWord a j)
  | cmd => rfl
  | unmapped => rfl
  | status => simp only [hs.status]; rfl
  | inReg => simp only [hs.inReg]
  | out => simp only [hs.out]
  | cnt => simp only [hs.cnt]; rfl
  | elen => simp only [hs.elen]; rfl
  | offset => simp only [hs.offset]; rfl
  | ilen => simp only [hs.ilen]; rfl
  | ebuf0 => simp only [hs.ebuf]; rfl
  | ebuf1 => simp only [hs.ebuf]; rfl

/-- Power-on reset clears the registers (R40). -/
theorem powerOn_registersCleared (c : Config) : RegistersCleared (State.powerOn c) :=
  ⟨rfl, rfl, rfl, rfl, rfl, rfl, rfl, rfl⟩

/-- A soft reset clears the registers (R172). -/
theorem softReset_registersCleared (s : State) : RegistersCleared ((powerOnReset s).setIbuf s.ibuf) :=
  ⟨rfl, rfl, rfl, rfl, rfl, rfl, rfl, rfl⟩

/-- Each EBUF byte of a cleared block is 0. -/
theorem RegistersCleared.ebuf_getElem {s : State} (hs : RegistersCleared s) (k : Fin 10) : s.ebuf[k] = 0#8 := by
  simp [hs.ebuf]

end Sys2Proof.Machine
end

section
/-! The obligations of `spec/10_state.md`. -/

open Sys2Proof Sys2Proof.Machine

/-- Settles O53: every register of the power-on state is zero and its IBUF is empty. -/
theorem powerOnMeetsTheInvariant : Obligations.PowerOnMeetsTheInvariant :=
  ⟨powerOn_inv, powerOn_inv Config.standard⟩

/-- Settles O54: each part of the invariant is kept by every step. -/
theorem everyStepKeepsTheInvariant : Obligations.EveryStepKeepsTheInvariant :=
  fun _ _ => step_inv

/-- Settles O6: the result commands by their equations, and that ENC, ZZE64 and ZZD64 are injective in IN. -/
theorem inIsReadWholeOrByItsLowHalf : Obligations.InIsReadWholeOrByItsLowHalf := by
  refine ⟨fun s v => busWrite_inAddr v s, busRead_inAddr, fun i s t => exec_inReg, ?_, ?_, ?_⟩
  · intro d s t h hd
    rcases busWrite_cmdAddr_cases h with ⟨i, rfl, hexec⟩ | ⟨-, rfl⟩
    · rw [exec_inReg hexec, if_neg (ne_of_apply_ne encode hd)]
    · simp
  · rintro s v hlow i (rfl | rfl)
    · exact ⟨_, _, exec_zze32 s, exec_zze32 _, by simp [hlow]⟩
    · exact ⟨_, _, exec_zzd32 s, exec_zzd32 _, by simp [hlow]⟩
  · intro s v hne
    refine ⟨?_, _, _, exec_enc s, exec_enc _, fun h => hne (ebufOf_varintEncode_injective h)⟩
    rintro i (rfl | rfl)
    · exact ⟨_, _, exec_zze64 s, exec_zze64 _, fun h => hne (zzEnc64_injective h)⟩
    · exact ⟨_, _, exec_zzd64 s, exec_zzd64 _, fun h => hne (zzDec64_injective h)⟩

/-- Settles O7: a decode that succeeds stops at the terminator of a varint at OFFSET, and every other command but SRST
leaves CNT. -/
theorem cntCountsTheConsumedBytes : Obligations.CntCountsTheConsumedBytes := by
  refine ⟨?_, ?_, ?_, ?_, busWrite_cntAddr, busRead_cntAddr, fun c => by simp, fun s t => step_cnt_le⟩
  · intro i s t hi h herr
    rcases exec_decode_cases hi h with ⟨v, c, hok, rfl⟩ | ⟨e, -, -, rfl⟩
    · obtain ⟨hpos, hmax, -⟩ := varintDecode_ok_bounds hok
      have hcond := varintDecode_condition s.ibuf s.offset.toNat s.ilen.toNat
      rw [hok] at hcond
      obtain ⟨n, rfl, hterm⟩ := hcond
      simpa only [consumed_toNat hmax] using ⟨hpos, hmax, hterm.exists_varint⟩
    · simp at herr
  · intro i s t hi h herr
    rcases exec_decode_cases hi h with ⟨v, c, -, rfl⟩ | ⟨e, -, hdecode, rfl⟩
    · simp at herr
    · simp [hdecode]
  · intro s t h
    cases (exec_srst s).symm.trans h
    rfl
  · intro d s t h hdec hdeca hsrst
    rcases busWrite_cmdAddr_cases h with ⟨i, rfl, hexec⟩ | ⟨-, rfl⟩
    · exact exec_cnt hexec (ne_of_apply_ne encode hdec) (ne_of_apply_ne encode hdeca) (ne_of_apply_ne encode hsrst)
    · rfl

/-- Settles O8: ENC leaves the length of a varint, which is not 0, and every other command but SRST leaves ELEN. -/
theorem elenIsTheLengthOfTheLastEncoding : Obligations.ElenIsTheLengthOfTheLastEncoding := by
  refine ⟨?_, ?_, ?_, busWrite_elenAddr, busRead_elenAddr, ?_, fun c => rfl, fun s t => step_elen_le⟩
  · intro s
    obtain ⟨hpos, hmax, -⟩ := varintEncode_isVarint s.inReg
    have hlen := varintEncode_length_toNat s.inReg
    exact ⟨_, exec_enc s, hlen, hpos.trans_eq hlen.symm, hlen.trans_le hmax⟩
  · intro s t h
    cases (exec_srst s).symm.trans h
    rfl
  · intro d s t h henc hsrst
    rcases busWrite_cmdAddr_cases h with ⟨i, rfl, hexec⟩ | ⟨-, rfl⟩
    · exact exec_elen hexec (ne_of_apply_ne encode henc) (ne_of_apply_ne encode hsrst)
    · rfl
  · intro s t hne h hzero
    rcases step_results_cases h with ⟨d, rest, hq, hwrite⟩ | ⟨rest, hq, -⟩ | hsame
    · refine ⟨rest, .inr ?_⟩
      rcases busWrite_cmdAddr_cases hwrite with ⟨i, rfl, hexec⟩ | ⟨-, rfl⟩
      · by_cases hi : i = .srst
        · rw [hq, hi]
        · exact absurd hzero (exec_elen_ne_zero hexec hi hne)
      · exact absurd hzero hne
    · exact ⟨rest, .inl hq⟩
    · exact absurd (hsame.elen.symm.trans hzero) hne

/-- Settles O9: the word of STATUS by its bits, and that only commands and reset change STATUS. -/
theorem statusWordHoldsItsFields : Obligations.StatusWordHoldsItsFields := by
  refine ⟨fun s => ?_, fun s d => busWrite_statusAddr d s, fun s t a d ha h => (busWrite_sameResults ha h).status,
    fun s t a h => (performAccess_read_sameResults h).status, fun c => rfl,
    fun s t hdstate herr h => ⟨step_dstate_ne hdstate h, step_err_le herr h⟩⟩
  obtain ⟨hdstate, hreserved, hsticky, hhigh⟩ := s.status.word_fields
  exact ⟨_, busRead_statusAddr s, hdstate, hreserved, s.status.word_err, hsticky, hhigh⟩

/-- Settles O10: each command's row by its equation, and the two decode errors by the conditions of the decode. -/
theorem errNamesTheLastErrorKind : Obligations.ErrNamesTheLastErrorKind := by
  refine ⟨?_, ?_, fun d s hd => ⟨_, busWrite_cmdAddr_illegal hd s, rfl⟩, exec_nop, fun c => rfl, fun s t => step_err_le⟩
  · intro i s hnop hdec hdeca
    cases i with
    | nop => exact absurd rfl hnop
    | dec => exact absurd rfl hdec
    | deca => exact absurd rfl hdeca
    | _ => exact ⟨_, rfl, rfl⟩
  · intro i s t hi h
    rw [← varintDecode_truncatedInput_iff, ← varintDecode_overflow_iff]
    rcases exec_decode_cases hi h with ⟨v, c, hok, rfl⟩ | ⟨e, herr, hdecode, rfl⟩
    · simp [hok]
    · rw [herr]
      cases e with
      | illegalCommand => cases hdecode
      | truncatedInput => simp [ErrorKind.code]
      | overflow => simp [ErrorKind.code]

/-- Settles O11: DSTATE after each outcome of a decode, and that no other command but CLRS and SRST writes it. -/
theorem dstateIsTheOutcomeOfTheLastDecode : Obligations.DstateIsTheOutcomeOfTheLastDecode := by
  refine ⟨?_, fun s => ⟨_, _, exec_clrs s, exec_srst s, rfl, rfl⟩, fun c => rfl, ?_, ?_, fun s t => step_dstate_ne⟩
  · intro i s t hi h
    rcases exec_decode_cases hi h with ⟨v, c, -, rfl⟩ | ⟨e, -, hdecode, rfl⟩
    · simp
    · simp [hdecode]
  · intro d s t h hdec hdeca hclrs hsrst
    rcases busWrite_cmdAddr_cases h with ⟨i, rfl, hexec⟩ | ⟨-, rfl⟩
    · exact exec_dstate hexec (ne_of_apply_ne encode hdec) (ne_of_apply_ne encode hdeca) (ne_of_apply_ne encode hclrs)
        (ne_of_apply_ne encode hsrst)
    · rfl
  · intro s t a d ha h
    rw [(busWrite_sameResults ha h).status]

/-- Settles O12: every error sets STICKY, and every command but CLRS and SRST keeps it set. -/
theorem stickyStaysUntilCleared : Obligations.StickyStaysUntilCleared := by
  refine ⟨?_, ?_, fun s => ⟨_, _, exec_clrs s, exec_srst s, rfl, rfl⟩, fun s => rfl⟩
  · intro d s t h hnop herr
    rcases busWrite_cmdAddr_cases h with ⟨i, rfl, hexec⟩ | ⟨-, rfl⟩
    · exact exec_sticky_of_err hexec (ne_of_apply_ne encode hnop) herr
    · rfl
  · intro s t hset h hclear
    have hne : t.status.sticky ≠ true := by simp [hclear]
    rcases step_results_cases h with ⟨d, rest, hq, hwrite⟩ | ⟨rest, hq, -⟩ | hsame
    · refine ⟨rest, .inr ?_⟩
      rcases busWrite_cmdAddr_cases hwrite with ⟨i, rfl, hexec⟩ | ⟨-, rfl⟩
      · by_cases hclrs : i = .clrs
        · exact .inl (hclrs ▸ hq)
        · by_cases hsrst : i = .srst
          · exact .inr (hsrst ▸ hq)
          · exact absurd (exec_sticky_stays hexec hclrs hsrst hset) hne
      · exact absurd rfl hne
    · exact ⟨rest, .inl hq⟩
    · exact absurd (hsame.status ▸ hset) hne

/-- Settles O15: the clamp and the bounds of a decode keep OFFSET and ILEN in IBUF, and a buffer that ends below
OFFSET ends before any terminator. -/
theorem offsetAndIlenStayInTheBuffer : Obligations.OffsetAndIlenStayInTheBuffer := by
  refine ⟨fun c => by simp [OffsetsBounded], fun s t => step_offsetsBounded,
    ⟨offsetAboveIlen, offsetAboveIlen_inv, by decide⟩, ?_⟩
  intro i s hi habove
  have htrunc : TruncatedAt s.ibuf s.offset.toNat s.ilen.toNat :=
    ⟨0, by decide, habove.le, fun _ h => absurd h (Nat.not_lt_zero _)⟩
  exact exec_decode_of_err hi ((varintDecode_truncatedInput_iff _ _ _).2 htrunc)

/-- Settles O16: the frame all commands share, then each command's row of the table by its equation. -/
theorem commandsWriteOnlyTheirWriteSets : Obligations.CommandsWriteOnlyTheirWriteSets := by
  refine ⟨?_, ?_, ?_, ?_, ?_, ?_, ?_⟩
  · intro s t h
    cases (exec_nop s).symm.trans h
    exact ⟨⟨rfl, rfl, rfl, rfl, rfl, rfl, rfl, rfl, fun _ => rfl⟩, rfl, rfl, rfl⟩
  · intro s t h
    refine ⟨exec_sameHost h, exec_sameIbuf h, ?_⟩
    cases (exec_enc s).symm.trans h
    simp
  · intro i s t hi h
    refine ⟨exec_sameHost h, exec_sameIbuf h, ?_⟩
    obtain ⟨v, heq⟩ := exec_zigzag hi s
    cases heq.symm.trans h
    simp
  · intro i s t hi h
    refine ⟨exec_sameHost h, exec_sameIbuf h, ?_⟩
    rcases exec_decode_cases hi h with ⟨v, c, hok, rfl⟩ | ⟨e, -, hdecode, rfl⟩
    · obtain ⟨hpos, hmax, hend⟩ := varintDecode_ok_bounds hok
      have hoffset : (if i = .deca then s.offset + BitVec.ofNat 16 c else s.offset).toNat =
          s.offset.toNat + (if i = .deca then c else 0) := by
        split
        · exact offset_add_consumed_toNat hend
        · rfl
      refine ⟨rfl, rfl, rfl, rfl, fun _ => ?_, by simp⟩
      simpa only [consumed_toNat hmax] using ⟨hpos, hmax, rfl, rfl, hoffset⟩
    · cases e with
      | illegalCommand => cases hdecode
      | truncatedInput => simp [ErrorKind.code, ErrorKind.isDecodeError]
      | overflow => simp [ErrorKind.code, ErrorKind.isDecodeError]
  · intro s t h
    refine ⟨exec_sameHost h, exec_sameIbuf h, ?_⟩
    cases (exec_clrs s).symm.trans h
    simp
  · intro s t h
    refine ⟨exec_sameHost h, exec_sameIbuf h, ?_⟩
    cases (exec_srst s).symm.trans h
    simp
  · intro d s t hd h
    cases (busWrite_cmdAddr_illegal hd s).symm.trans h
    exact ⟨⟨rfl, rfl, rfl⟩, fun _ => rfl, rfl, rfl, rfl, rfl, rfl, rfl, rfl, rfl, rfl, rfl⟩

/-- Settles O13: the fields of ID by the widths it concatenates. -/
theorem idReadsItsConstant : Obligations.IdReadsItsConstant :=
  ⟨fun s => ⟨_, busRead_idAddr s, idWord_fields s.config⟩,
    fun s hsize => by rw [busRead_idAddr, idWord, hsize]; rfl,
    fun s d => busWrite_idAddr d s⟩

/-- Settles O14: the clamp, and that the write stores it in its register only. -/
theorem offsetAndIlenWritesClamp : Obligations.OffsetAndIlenWritesClamp :=
  ⟨fun s d => ⟨_, busWrite_offsetAddr d s, clampToIbuf_toNat _ _⟩,
    fun s d => ⟨_, busWrite_ilenAddr d s, clampToIbuf_toNat _ _⟩⟩

/-- Settles O51: power-on and SRST both clear the registers, and only power-on empties IBUF. -/
theorem resetValues : Obligations.ResetValues := by
  refine ⟨fun c => ?_, fun s => ?_⟩
  · have hclear := powerOn_registersCleared c
    exact ⟨busRead_idAddr _, fun a => hclear.busRead, hclear.ebuf_getElem, fun k => rfl⟩
  · have hclear := softReset_registersCleared s
    exact ⟨_, exec_srst s, busRead_idAddr _, fun a => hclear.busRead, hclear.ebuf_getElem, fun k => rfl⟩

end

section
/-! SUPPORT. How bytes are packed into bus words (`spec/20_memory.md` R65): a word is the concatenation of its bytes,
byte 0 lowest, and is determined by them. -/

namespace Sys2Proof.Machine

/-- Words with the same eight bytes are equal. -/
theorem eq_of_byteOf_eq {v w : Word} (h : ∀ i < 8, byteOf v i = byteOf w i) : v = w := by
  apply BitVec.eq_of_getLsbD_eq
  intro k hk
  have hbit := congrArg (fun b => b.getLsbD (k % 8)) (h (k / 8) (by omega))
  have hlt : k % 8 < 8 := Nat.mod_lt _ (by decide)
  simpa [byteOf, BitVec.getLsbD_extractLsb', hlt, Nat.div_add_mod] using hbit

/-- Packing the bytes of a word gives the word back. -/
theorem packWord_unpackWord (d : Word) : packWord (unpackWord d) = d :=
  eq_of_byteOf_eq fun i hi => by rw [byteOf_packWord _ i hi, unpackWord_getD d i hi]

/-- Putting a byte below a bit string is one step of packing. -/
theorem setWidth_append_byte {n : Nat} (x : BitVec n) (b : Byte) :
    (x ++ b).setWidth 64 = b.setWidth 64 ||| (x.setWidth 64 <<< 8) := by
  apply BitVec.eq_of_getLsbD_eq
  intro k hk
  by_cases hlow : k < 8
  · simp [BitVec.getLsbD_append, hk, hlow]
  · simp [BitVec.getLsbD_append, BitVec.getLsbD_of_ge b k (by omega), hk, hlow]

/-- A word of eight bytes is their concatenation, byte 0 lowest. -/
theorem packWord_eight (b0 b1 b2 b3 b4 b5 b6 b7 : Byte) :
    packWord [b0, b1, b2, b3, b4, b5, b6, b7] = b7 ++ b6 ++ b5 ++ b4 ++ b3 ++ b2 ++ b1 ++ b0 := by
  calc packWord [b0, b1, b2, b3, b4, b5, b6, b7]
    _ = (b7 ++ b6 ++ b5 ++ b4 ++ b3 ++ b2 ++ b1 ++ b0).setWidth 64 := by
      simp only [packWord, setWidth_append_byte, BitVec.zero_shiftLeft, BitVec.or_zero]
    _ = b7 ++ b6 ++ b5 ++ b4 ++ b3 ++ b2 ++ b1 ++ b0 := BitVec.setWidth_eq _

/-- A word of two bytes is their concatenation, the high bits zero. -/
theorem packWord_two (b0 b1 : Byte) : packWord [b0, b1] = (b1 ++ b0).setWidth 64 := by
  simp [packWord, setWidth_append_byte]

/-- Bytes 0 to 7 of EBUF are the bytes of the word EBUF0 reads as. -/
theorem byteOf_ebuf0Word (e : Vector Byte 10) {k : Fin 10} (hk : k.val < 8) : byteOf (ebuf0Word e) k = e[k] := by
  rw [ebuf0Word, byteOf_packWord _ k hk]
  match k with
  | 0 | 1 | 2 | 3 | 4 | 5 | 6 | 7 => rfl
  | 8 | 9 => contradiction

/-- The fields of the word EBUF1 reads as: EBUF bytes 8 and 9, and zeros. -/
theorem ebuf1Word_fields (e : Vector Byte 10) :
    (ebuf1Word e).extractLsb' 0 8 = e[8] ∧ (ebuf1Word e).extractLsb' 8 8 = e[9] ∧
      (ebuf1Word e).extractLsb' 16 48 = 0#48 := by
  refine ⟨byteOf_packWord _ 0 (by decide), byteOf_packWord _ 1 (by decide), ?_⟩
  apply BitVec.eq_of_getLsbD_eq
  intro k hk
  simp [ebuf1Word, packWord_two, hk]

end Sys2Proof.Machine
end

section
/-! SUPPORT. The word address map, address by address (`spec/20_memory.md` R63, R64): what the addresses that name no
register and lie outside IBUF do, and what a read and a write of an IBUF word do (R65, R76). -/

namespace Sys2Proof.Machine

/-! ### Registers and unmapped addresses -/

section registerReads
variable (s : State)
theorem busRead_cmdAddr : busRead s 0x001#13 = .ok 0#64 := by simp only [busRead, busTarget_cmdAddr]
theorem busRead_outAddr : busRead s 0x004#13 = .ok s.out := by simp only [busRead, busTarget_outAddr]
theorem busRead_offsetAddr : busRead s 0x007#13 = .ok (s.offset.setWidth 64) := by
  simp only [busRead, busTarget_offsetAddr]
theorem busRead_ilenAddr : busRead s 0x008#13 = .ok (s.ilen.setWidth 64) := by simp only [busRead, busTarget_ilenAddr]
theorem busRead_ebuf0Addr : busRead s 0x010#13 = .ok (ebuf0Word s.ebuf) := by simp only [busRead, busTarget_ebuf0Addr]
theorem busRead_ebuf1Addr : busRead s 0x011#13 = .ok (ebuf1Word s.ebuf) := by simp only [busRead, busTarget_ebuf1Addr]
end registerReads

/-- Handing a word to the host does not change what a read returns (R61, R69). -/
theorem busRead_addRead (s : State) (v : Word) (a : BusAddr) : busRead (s.addRead v) a = busRead s a := rfl

/-- A read that answers a next state hands the word it returns to the host (R61, R224). -/
theorem performAccess_read_cases {a : BusAddr} {s t : State} (h : performAccess (.read a) s = .next t) :
    ∃ v, busRead s a = .ok v ∧ t = s.addRead v := by
  unfold performAccess at h
  cases hr : busRead s a with
  | ok v =>
    simp only [hr] at h
    cases h
    exact ⟨v, rfl, rfl⟩
  | error f =>
    simp only [hr] at h
    cases h

/-- An address outside IBUF that names no register is unmapped (R64). -/
theorem busTarget_unmapped {c : Config} {a : BusAddr} (hout : a.toNat < ibufBase ∨ ibufBase + c.ibufWords ≤ a.toNat)
    (hreg : ∀ r : RegName, a ≠ r.addr) : busTarget c a = .unmapped := by
  rw [busTarget_register c a hout]
  unfold registerTarget
  exact (if_neg (hreg .id)).trans <| (if_neg (hreg .cmd)).trans <| (if_neg (hreg .status)).trans <|
    (if_neg (hreg .inReg)).trans <| (if_neg (hreg .out)).trans <| (if_neg (hreg .cnt)).trans <|
    (if_neg (hreg .elen)).trans <| (if_neg (hreg .offset)).trans <| (if_neg (hreg .ilen)).trans <|
    (if_neg (hreg .ebuf0)).trans (if_neg (hreg .ebuf1))

/-- The registers lie at 0x000 to 0x008, 0x010 and 0x011 (R63). -/
theorem RegName.addr_range (r : RegName) : r.addr.toNat ≤ 0x008 ∨ r.addr.toNat = 0x010 ∨ r.addr.toNat = 0x011 := by
  cases r <;> decide

/-- A write to an address outside IBUF that is none of CMD, IN, OFFSET and ILEN is ignored (R62, R64). -/
theorem busWrite_ignored {s : State} {a : BusAddr} (d : Word)
    (hout : a.toNat < ibufBase ∨ ibufBase + s.config.ibufWords ≤ a.toNat)
    (hcmd : a ≠ RegName.cmd.addr) (hin : a ≠ RegName.inReg.addr) (hoffset : a ≠ RegName.offset.addr)
    (hilen : a ≠ RegName.ilen.addr) : busWrite a d s = .next s := by
  by_cases hreg : ∃ r : RegName, a = r.addr
  · obtain ⟨r, rfl⟩ := hreg
    rw [busWrite, busTarget_regName]
    cases r with
    | cmd | inReg | offset | ilen => contradiction
    | id | status | out | cnt | elen | ebuf0 | ebuf1 => rfl
  · rw [busWrite, busTarget_unmapped hout (not_exists.1 hreg)]

/-! ### IBUF words -/

/-- A word whose eight bytes are written reads as those bytes. -/
theorem busRead_ibufAddr_ok {s : State} {j : Nat} (hj : j < s.config.ibufWords) {bs : List Byte}
    (hlen : bs.length = 8) (hbytes : BytesAt s.ibuf (8 * j) bs) : busRead s (ibufAddrOf j) = .ok (packWord bs) := by
  have hrun : Memory.readRun s.ibuf (8 * j) 8 = some bs :=
    (Memory.readRun_eq_some 8 s.ibuf (8 * j) bs).2 ⟨hlen, fun i hi => hbytes i (by omega)⟩
  simp only [busRead, busTarget_ibuf _ _ hj, Memory.readWord, hrun, Option.map_some]

/-- A word reads as none exactly when one of its bytes is unwritten. -/
theorem Memory.readWord_eq_none (m : Memory) (j : Nat) :
    Memory.readWord m j = none ↔ ∃ i < 8, Memory.read m (8 * j + i) = none := by
  rw [Memory.readWord, Option.map_eq_none_iff, Memory.readRun_eq_none]

/-- A read of an IBUF word faults exactly when one of its bytes is unwritten (R76). -/
theorem busRead_ibufAddr_error_iff {s : State} {j : Nat} (hj : j < s.config.ibufWords) :
    busRead s (ibufAddrOf j) = .error (.busReadsUnwritten j) ↔ ∃ i < 8, Memory.read s.ibuf (8 * j + i) = none := by
  rw [← Memory.readWord_eq_none]
  simp only [busRead, busTarget_ibuf _ _ hj]
  cases Memory.readWord s.ibuf j <;> simp

/-- A write to an IBUF word stores it (R62). -/
theorem busWrite_ibufAddr {s : State} {j : Nat} (hj : j < s.config.ibufWords) (d : Word) :
    busWrite (ibufAddrOf j) d s = .next (s.setIbuf (Memory.writeWord s.ibuf j d)) := by
  simp only [busWrite, busTarget_ibuf _ _ hj]

/-- A word write stores the bytes of the word (R65). -/
theorem Memory.read_writeWord_byte (m : Memory) (j : Nat) (d : Word) {i : Nat} (hi : i < 8) :
    Memory.read (Memory.writeWord m j d) (8 * j + i) = some (byteOf d i) := by
  rw [Memory.read_writeWord, if_pos (by omega), Nat.add_sub_cancel_left]

/-- After a word write the bytes of the word lie in the memory. -/
theorem bytesAt_writeWord (m : Memory) (j : Nat) (d : Word) :
    BytesAt (Memory.writeWord m j d) (8 * j) (unpackWord d) := fun i hi => by
  rw [Memory.read_writeWord_byte m j d hi, unpackWord_getD d i hi]

/-- Writing a word of a canonical memory twice is writing it once (R69). -/
theorem Memory.writeWord_writeWord {m : Memory} (hm : Memory.wf m = true) (j : Nat) (d : Word) :
    Memory.writeWord (Memory.writeWord m j d) j d = Memory.writeWord m j d := by
  have hwf := Memory.writeWord_wf m j d hm
  refine Memory.ext_of_wf _ _ (Memory.writeWord_wf _ j d hwf) hwf fun k => ?_
  rw [Memory.read_writeWord]
  split
  case isTrue hk => rw [Memory.read_writeWord, if_pos hk]
  case isFalse => rfl

/-- A write to any address but CMD has, done again, no further effect (R69). -/
theorem busWrite_busWrite {s t : State} {a : BusAddr} {d : Word} (hwf : Memory.wf s.ibuf = true) (ha : a ≠ 0x001#13)
    (h : busWrite a d s = .next t) : busWrite a d t = .next t := by
  rw [busWrite, busWrite_config h]
  unfold busWrite at h
  cases htarget : busTarget s.config a with
  | cmd => exact absurd (busTarget_cmd _ _ htarget) ha
  | ibufWord j =>
    simp only [htarget] at h
    cases h
    exact congrArg (fun m => Host.Outcome.next (s.setIbuf m)) (Memory.writeWord_writeWord hwf j d)
  | inReg | offset | ilen | id | status | out | cnt | elen | ebuf0 | ebuf1 | unmapped =>
    simp only [htarget] at h
    cases h
    rfl

end Sys2Proof.Machine
end

section
/-! The obligations of `spec/20_memory.md` on the address map. -/

open Sys2Proof Sys2Proof.Machine

/-- Settles O17: a read only hands on its word, and the word of each address by the map. -/
theorem readsFollowTheAddressMap : Obligations.ReadsFollowTheAddressMap := by
  refine ⟨fun s t a h => ?_, fun s => ⟨busRead_idAddr s, busRead_cmdAddr s, busRead_statusAddr s, busRead_inAddr s,
    busRead_outAddr s, busRead_cntAddr s, busRead_elenAddr s, busRead_offsetAddr s, busRead_ilenAddr s,
    fun a ha => ?_, ⟨_, busRead_ebuf0Addr s, fun k => byteOf_ebuf0Word s.ebuf⟩,
    ⟨_, busRead_ebuf1Addr s, ebuf1Word_fields s.ebuf⟩, fun j hj bs hlen hbytes =>
      ⟨_, busRead_ibufAddr_ok hj hlen hbytes, fun i hi => byteOf_packWord bs i hi⟩⟩⟩
  · obtain ⟨v, hr, rfl⟩ := performAccess_read_cases h
    exact ⟨v, hr, rfl, (busRead_addRead s v a).trans hr⟩
  · have hout : a.toNat < ibufBase ∨ ibufBase + s.config.ibufWords ≤ a.toNat := by
      unfold ibufBase Config.ibufWords
      omega
    have hreg : ∀ r : RegName, a ≠ r.addr := by
      rintro r rfl
      have := r.addr_range
      omega
    rw [busRead, busTarget_unmapped hout hreg]

/-- Settles O18: the write of each address by the map, and where a word write stores its bytes. -/
theorem writesFollowTheAddressMap : Obligations.WritesFollowTheAddressMap := by
  refine fun s d => ⟨busWrite_cmdAddr d s, busWrite_inAddr d s, busWrite_offsetAddr d s, busWrite_ilenAddr d s,
    fun a ha => ?_, fun j hj => ⟨_, busWrite_ibufAddr hj d, fun i => Memory.read_writeWord_byte s.ibuf j d,
      fun k hk => ?_⟩⟩
  · have hne : ∀ b : BusAddr, b.toNat = 1 ∨ b.toNat = 3 ∨ b.toNat = 7 ∨ b.toNat = 8 → a ≠ b := by
      rintro b hb rfl
      omega
    refine busWrite_ignored d ?_ (hne _ (by decide)) (hne _ (by decide)) (hne _ (by decide)) (hne _ (by decide))
    unfold ibufBase Config.ibufWords
    omega
  · rw [Memory.read_writeWord, if_neg (by omega)]

/-- Settles O19: a word is the concatenation of its bytes, and is packed from the bytes it was stored as. -/
theorem buffersArePackedLittleEndian : Obligations.BuffersArePackedLittleEndian := by
  refine ⟨fun s t j d hj h => ?_, fun s j b0 b1 b2 b3 b4 b5 b6 b7 hj hbytes => ?_, fun s => ?_, fun s => ?_⟩
  · cases (busWrite_ibufAddr hj d).symm.trans h
    have hread := busRead_ibufAddr_ok (s := s.setIbuf (Memory.writeWord s.ibuf j d)) hj rfl
      (bytesAt_writeWord s.ibuf j d)
    exact ⟨hread.trans (congrArg Except.ok (packWord_unpackWord d)), fun i => Memory.read_writeWord_byte s.ibuf j d⟩
  · rw [← packWord_eight]
    exact busRead_ibufAddr_ok hj rfl hbytes
  · rw [busRead_ebuf0Addr, ebuf0Word, packWord_eight]
  · rw [busRead_ebuf1Addr, ebuf1Word, packWord_two]

/-- Settles O20: storing a value in a register, or a word in a canonical IBUF, again changes nothing. -/
theorem storingTwiceIsStoringOnce : Obligations.StoringTwiceIsStoringOnce :=
  fun _ _ _ _ => busWrite_busWrite

end

section
/-! SUPPORT. Unwritten IBUF bytes (`spec/20_memory.md` R76): when a decode meets one, what a command, a bus access and
a step can stop on, and that a written byte stays written. -/

namespace Sys2Proof.Machine

/-! ### Decodes -/

/-- A byte that ends a decode as a terminator is written, so the decode does not need an unwritten one. -/
theorem UnwrittenAt.not_terminatedAt {m : Memory} {p e n n' : Nat} (h : UnwrittenAt m p e n) :
    ¬ TerminatedAt m p e n' := by
  rintro ⟨-, -, hrun', b, hread', hb, -⟩
  obtain ⟨-, -, hrun, hread⟩ := h
  have hle : n ≤ n' := continuationRun_le hrun (by simp [hread', hb])
  have hge : n' ≤ n := continuationRun_le hrun' (by simp [hread])
  obtain rfl := Nat.le_antisymm hle hge
  simp [hread] at hread'

/-- A decode stops on an unwritten byte exactly when it needs one (R125). -/
theorem varintDecode_unwritten_iff (m : Memory) (p e : Nat) :
    (∃ k, varintDecode m p e = .unwritten k) ↔ ∃ n, UnwrittenAt m p e n := by
  have hcond := varintDecode_condition m p e
  constructor
  · rintro ⟨k, hk⟩
    rw [hk] at hcond
    obtain ⟨n, -, hn⟩ := hcond
    exact ⟨n, hn⟩
  · rintro ⟨n, hn⟩
    cases hr : varintDecode m p e with
    | unwritten k => exact ⟨k, rfl⟩
    | ok v c =>
      rw [hr] at hcond
      obtain ⟨n', -, hterm⟩ := hcond
      exact absurd hterm hn.not_terminatedAt
    | err k =>
      rw [hr] at hcond
      cases k with
      | truncatedInput => exact absurd hcond hn.not_truncatedAt
      | overflow => exact absurd hcond hn.not_overflowAt
      | illegalCommand => exact hcond.elim

/-- A decode command answers a next state, or stops on the unwritten byte its decode needs. -/
theorem decodeCommand_next_or_fault (onOk : Word → Nat → State → State) (s : State) :
    (∃ t, decodeCommand onOk s = .next t) ∨
    (∃ k, varintDecode s.ibuf s.offset.toNat s.ilen.toNat = .unwritten k ∧
      decodeCommand onOk s = .fault (.decodeReadsUnwritten k)) := by
  rcases decodeCommand_cases onOk s with ⟨v, c, -, hnext⟩ | ⟨e, -, hnext⟩ | ⟨k, hun, hfault⟩
  · exact .inl ⟨_, hnext⟩
  · exact .inl ⟨_, hnext⟩
  · exact .inr ⟨k, hun, hfault⟩

/-- Every command answers a next state, but for DEC and DECA where their decode needs an unwritten byte (R194). -/
theorem exec_next_or_fault (i : Instr) (s : State) :
    (∃ t, exec i s = .next t) ∨
    ((i = .dec ∨ i = .deca) ∧ ∃ k, varintDecode s.ibuf s.offset.toNat s.ilen.toNat = .unwritten k ∧
      exec i s = .fault (.decodeReadsUnwritten k)) := by
  cases i with
  | dec => exact (decodeCommand_next_or_fault recordDecoded s).imp_right fun h => ⟨.inl rfl, h⟩
  | deca =>
    exact (decodeCommand_next_or_fault (fun v c s => advanceOffset c (recordDecoded v c s)) s).imp_right
      fun h => ⟨.inr rfl, h⟩
  | nop | enc | zze32 | zze64 | zzd32 | zzd64 | clrs | srst => exact .inl ⟨_, rfl⟩

/-- DEC and DECA fault exactly where their decode needs an unwritten byte (R76). -/
theorem exec_decode_fault_iff {i : Instr} (hi : i = .dec ∨ i = .deca) (s : State) :
    (∃ k, exec i s = .fault (.decodeReadsUnwritten k)) ↔ ∃ n, UnwrittenAt s.ibuf s.offset.toNat s.ilen.toNat n := by
  rw [← varintDecode_unwritten_iff]
  rcases exec_next_or_fault i s with ⟨t, hnext⟩ | ⟨-, k, hun, hfault⟩
  · refine iff_of_false ?_ ?_
    · rintro ⟨k, hfault⟩
      cases hnext.symm.trans hfault
    · rintro ⟨k, hun⟩
      rcases exec_decode_cases hi hnext with ⟨v, c, hok, -⟩ | ⟨e, herr, -⟩
      · cases hok.symm.trans hun
      · cases herr.symm.trans hun
  · exact iff_of_true ⟨k, hfault⟩ ⟨k, hun⟩

/-! ### What a step can stop on -/

/-- Event `e`, performed on `s`, has to read an unwritten IBUF byte and stops with fault `f`: a decode command, at a
byte from OFFSET up and below ILEN, or a read of an IBUF word (R76). -/
inductive ReadsUnwritten (s : State) : HostEvent → Fault → Prop where
  | decode {d : Word} {k : Nat} (hd : IsDecodeWord d) (hlow : s.offset.toNat ≤ k) (hhigh : k < s.ilen.toNat)
      (hun : Memory.read s.ibuf k = none) :
      ReadsUnwritten s (.access (.write 0x001#13 d)) (.decodeReadsUnwritten k)
  | busRead {a : BusAddr} {j i : Nat} (ha : a.toNat = ibufBase + j) (hj : j < s.config.ibufWords) (hi : i < 8)
      (hun : Memory.read s.ibuf (8 * j + i) = none) : ReadsUnwritten s (.access (.read a)) (.busReadsUnwritten j)

/-- What the host still has to issue does not matter to it. -/
theorem ReadsUnwritten.of_setQueue {s : State} {q : List HostEvent} {e : HostEvent} {f : Fault}
    (h : ReadsUnwritten (s.setQueue q) e f) : ReadsUnwritten s e f := by
  cases h with
  | decode hd hlow hhigh hun => exact .decode hd hlow hhigh hun
  | busRead ha hj hi hun => exact .busRead ha hj hi hun

/-- An event that has to read an unwritten byte is one that may read IBUF. -/
theorem ReadsUnwritten.mayReadIbuf {s : State} {e : HostEvent} {f : Fault} (h : ReadsUnwritten s e f) :
    MayReadIbuf e := by
  cases h with
  | decode hd => exact .inr ⟨_, rfl, hd⟩
  | busRead ha => exact .inl ⟨_, rfl, ha ▸ Nat.le_add_right _ _⟩

/-- A read returns a word, or faults on an unwritten byte of an IBUF word. -/
theorem busRead_ok_or_error (s : State) (a : BusAddr) :
    (∃ v, busRead s a = .ok v) ∨ ∃ f, busRead s a = .error f ∧ ReadsUnwritten s (.access (.read a)) f := by
  unfold busRead
  cases htarget : busTarget s.config a with
  | ibufWord j =>
    obtain ⟨ha, hj⟩ := busTarget_ibufWord _ _ _ htarget
    cases hword : Memory.readWord s.ibuf j with
    | some d => exact .inl ⟨d, by simp only [hword]⟩
    | none =>
      obtain ⟨i, hi, hun⟩ := (Memory.readWord_eq_none _ _).1 hword
      exact .inr ⟨_, by simp only [hword], .busRead ha hj hi hun⟩
  | id | cmd | status | inReg | out | cnt | elen | offset | ilen | ebuf0 | ebuf1 | unmapped => exact .inl ⟨_, rfl⟩

/-- A write to CMD answers a next state, or its word is DEC's or DECA's and its decode needs an unwritten byte. -/
theorem commandWrite_next_or_fault (d : Word) (s : State) :
    (∃ t, commandWrite d s = .next t) ∨
      ∃ f, commandWrite d s = .fault f ∧ ReadsUnwritten s (.access (.write 0x001#13 d)) f := by
  cases hdec : decode d with
  | error e => exact .inl ⟨raise .illegalCommand s, by simp only [commandWrite, hdec, illegalCommand]⟩
  | ok i =>
    rw [commandWrite_of_decode_ok hdec]
    refine (exec_next_or_fault i s).imp_right ?_
    rintro ⟨hi, k, hun, hfault⟩
    have hword : IsDecodeWord d := by
      rw [decode_eq_ok_iff.1 hdec]
      exact hi.imp (congrArg encode) (congrArg encode)
    obtain ⟨hlow, hhigh, hread⟩ := decodeLoop_unwritten _ _ _ _ _ _ _ hun
    exact ⟨_, hfault, .decode hword hlow hhigh hread⟩

/-- An event of the host answers a next state, or has to read an unwritten byte. -/
theorem performEvent_next_or_fault (e : HostEvent) (s : State) :
    (∃ t, performEvent e s = .next t) ∨ ∃ f, performEvent e s = .fault f ∧ ReadsUnwritten s e f := by
  match e with
  | .powerOnReset => exact .inl ⟨_, rfl⟩
  | .access (.read a) =>
    simp only [performEvent, performAccess]
    rcases busRead_ok_or_error s a with ⟨v, hok⟩ | ⟨f, herr, hun⟩
    · exact .inl ⟨s.addRead v, by rw [hok]⟩
    · exact .inr ⟨f, by rw [herr], hun⟩
  | .access (.write a d) =>
    simp only [performEvent, performAccess]
    by_cases ha : a = 0x001#13
    · subst ha
      rw [busWrite_cmdAddr]
      exact commandWrite_next_or_fault d s
    · refine .inl ?_
      unfold busWrite
      cases htarget : busTarget s.config a with
      | cmd => exact absurd (busTarget_cmd _ _ htarget) ha
      | id | status | inReg | out | cnt | elen | offset | ilen | ebuf0 | ebuf1 | ibufWord | unmapped =>
        exact ⟨_, rfl⟩

/-- A step answers a next state, or the host's oldest event has to read an unwritten byte (R75, R76, R194). -/
theorem step_next_or_fault (s : State) :
    (∃ t, step s = .next t) ∨
      ∃ e rest f, s.hostQueue = e :: rest ∧ step s = .fault f ∧ ReadsUnwritten s e f := by
  cases hq : s.hostQueue with
  | nil => exact .inl ⟨s, step_of_empty_queue hq⟩
  | cons e rest =>
    rw [step_of_event hq]
    refine (performEvent_next_or_fault e (s.setQueue rest)).imp_right ?_
    rintro ⟨f, hfault, hun⟩
    exact ⟨e, rest, f, rfl, hfault, hun.of_setQueue⟩

/-! ### Written bytes -/

/-- A bus write leaves every written byte written. -/
theorem busWrite_keeps_written {a : BusAddr} {d : Word} {s t : State} {k : Nat} (h : busWrite a d s = .next t)
    (hk : (Memory.read s.ibuf k).isSome = true) : (Memory.read t.ibuf k).isSome = true := by
  rcases busWrite_cases a d s t h with ⟨rfl, -⟩ | rfl | rfl | rfl | ⟨j, -, -, rfl⟩ | rfl
  · rcases busWrite_cmdAddr_cases h with ⟨i, -, hexec⟩ | ⟨-, rfl⟩
    · rwa [exec_ibuf hexec]
    · exact hk
  · exact hk
  · exact hk
  · exact hk
  · rw [State.setIbuf_ibuf, Memory.read_writeWord]
    split
    · rfl
    · exact hk
  · exact hk

/-- A step leaves every written byte written, unless it is power-on reset (R76). -/
theorem step_keeps_written {s t : State} {k : Nat} (hk : (Memory.read s.ibuf k).isSome = true)
    (h : step s = .next t) :
    (∃ rest, s.hostQueue = .powerOnReset :: rest) ∨ (Memory.read t.ibuf k).isSome = true := by
  rcases step_cases s t h with ⟨-, rfl⟩ | ⟨a, rest, v, -, -, rfl⟩ | ⟨a, d, rest, -, hwrite⟩ | ⟨rest, hq, -⟩
  · exact .inr hk
  · exact .inr hk
  · exact .inr (busWrite_keeps_written hwrite hk)
  · exact .inl ⟨rest, hq⟩

end Sys2Proof.Machine
end

section
/-! SUPPORT. Runs (`spec/20_memory.md` R70, `spec/70_reset_and_hazards.md` R224): each step takes one event off the
host's queue, and what an access does does not depend on the events that wait behind it. -/

namespace Sys2Proof.Machine

/-! ### The host's queue -/

/-- No bus write issues or drops an event of the host. -/
theorem busWrite_hostQueue {a : BusAddr} {d : Word} {s t : State} (h : busWrite a d s = .next t) :
    t.hostQueue = s.hostQueue := by
  rcases busWrite_cases a d s t h with ⟨rfl, -⟩ | rfl | rfl | rfl | ⟨j, -, -, rfl⟩ | rfl
  · rcases busWrite_cmdAddr_cases h with ⟨i, -, hexec⟩ | ⟨-, rfl⟩
    · obtain ⟨-, hqueue, -⟩ := exec_sameHost hexec
      exact hqueue
    · exact raise_hostQueue .illegalCommand s
  all_goals rfl

/-- An access leaves the events that wait behind it. -/
theorem performAccess_hostQueue {b : BusAccess} {s t : State} (h : performAccess b s = .next t) :
    t.hostQueue = s.hostQueue := by
  cases b with
  | write a d => exact busWrite_hostQueue h
  | read a =>
    obtain ⟨v, -, rfl⟩ := performAccess_read_cases h
    rfl

/-- A step takes the oldest event off the queue. -/
theorem step_hostQueue {s t : State} (h : step s = .next t) : t.hostQueue = s.hostQueue.tail := by
  rcases step_cases s t h with ⟨hq, rfl⟩ | ⟨a, rest, v, hq, -, rfl⟩ | ⟨a, d, rest, hq, hwrite⟩ | ⟨rest, hq, rfl⟩
  · rw [hq, List.tail_nil]
  · rw [hq, List.tail_cons, State.addRead_hostQueue, State.setQueue_hostQueue]
  · rw [hq, List.tail_cons, busWrite_hostQueue hwrite, State.setQueue_hostQueue]
  · rw [hq, List.tail_cons, powerOnReset_hostQueue, State.setQueue_hostQueue]

/-! ### Events that wait do not matter -/

/-- Replace the host's queue in the state an outcome goes on with. -/
def withQueue (q : List HostEvent) (o : Host.Outcome State Fault Refusal) : Host.Outcome State Fault Refusal :=
  andThen o fun t => .next (t.setQueue q)

theorem raise_setQueue (e : ErrorKind) (s : State) (q : List HostEvent) :
    raise e (s.setQueue q) = (raise e s).setQueue q := by
  cases e <;> rfl

/-- A decode command does not read the queue, where recording its result does not. -/
theorem decodeCommand_setQueue {onOk : Word → Nat → State → State} (q : List HostEvent)
    (hok : ∀ v c s, onOk v c (s.setQueue q) = (onOk v c s).setQueue q) (s : State) :
    decodeCommand onOk (s.setQueue q) = withQueue q (decodeCommand onOk s) := by
  have hstart : decodeStart (s.setQueue q) = decodeStart s := rfl
  have hend : decodeEnd (s.setQueue q) = decodeEnd s := rfl
  simp only [decodeCommand, State.setQueue_ibuf, hstart, hend, hok, raise_setQueue]
  cases varintDecode s.ibuf (decodeStart s) (decodeEnd s) <;> rfl

/-- No command reads the queue. -/
theorem exec_setQueue (i : Instr) (s : State) (q : List HostEvent) :
    exec i (s.setQueue q) = withQueue q (exec i s) := by
  cases i with
  | dec => exact decodeCommand_setQueue (onOk := recordDecoded) q (fun _ _ _ => rfl) s
  | deca =>
    exact decodeCommand_setQueue (onOk := fun v c s => advanceOffset c (recordDecoded v c s)) q (fun _ _ _ => rfl) s
  | nop | enc | zze32 | zze64 | zzd32 | zzd64 | clrs | srst => rfl

/-- No write to CMD reads the queue. -/
theorem commandWrite_setQueue (d : Word) (s : State) (q : List HostEvent) :
    commandWrite d (s.setQueue q) = withQueue q (commandWrite d s) := by
  unfold commandWrite
  cases decode d with
  | ok i => exact exec_setQueue i s q
  | error e => rfl

/-- No bus write reads the queue. -/
theorem busWrite_setQueue (a : BusAddr) (d : Word) (s : State) (q : List HostEvent) :
    busWrite a d (s.setQueue q) = withQueue q (busWrite a d s) := by
  unfold busWrite
  rw [State.setQueue_config]
  cases busTarget s.config a with
  | cmd => exact commandWrite_setQueue d s q
  | id | status | inReg | out | cnt | elen | offset | ilen | ebuf0 | ebuf1 | ibufWord | unmapped => rfl

/-- No access reads the queue (R70). -/
theorem performAccess_setQueue (b : BusAccess) (s : State) (q : List HostEvent) :
    performAccess b (s.setQueue q) = withQueue q (performAccess b s) := by
  cases b with
  | write a d => exact busWrite_setQueue a d s q
  | read a =>
    simp only [performAccess, busRead_setQueue]
    cases busRead s a <;> rfl

/-- Setting the queue to what it is changes nothing. -/
theorem State.setQueue_of_hostQueue_eq {s : State} {q : List HostEvent} (h : s.hostQueue = q) : s.setQueue q = s := by
  subst h
  rfl

/-! ### Runs -/

/-- A run goes on from the next state of its first step. -/
theorem run_succ {s t : State} (n : Nat) (h : step s = .next t) :
    Host.Core.run core (n + 1) s = Host.Core.run core n t := by
  have hstep : core.step s = .next t := h
  simp only [Host.Core.run, hstep]

/-- A run whose host reads no IBUF byte meets no fault. -/
theorem safeRun_of_not_mayReadIbuf {n : Nat} {s : State} (hs : ∀ e ∈ s.hostQueue, ¬ MayReadIbuf e) :
    SafeRun n s := by
  induction n generalizing s with
  | zero => exact ⟨s, rfl⟩
  | succ n ih =>
    rcases step_next_or_fault s with ⟨t, ht⟩ | ⟨e, rest, f, hq, -, hun⟩
    · have htail : ∀ e ∈ t.hostQueue, ¬ MayReadIbuf e := fun e he =>
        hs e (List.mem_of_mem_tail (step_hostQueue ht ▸ he))
      obtain ⟨u, hu⟩ := ih htail
      exact ⟨u, (run_succ n ht).trans hu⟩
    · exact absurd hun.mayReadIbuf (hs e (by simp [hq]))

/-- Accesses that end in a state, performed in order with nothing pending, end there as the host's queue. -/
theorem run_of_runAccesses {p : List BusAccess} {s t : State} (h : runAccesses p (s.setQueue []) = .next t) :
    Host.Core.run core p.length (s.setQueue (p.map HostEvent.access)) = .next t := by
  induction p generalizing s with
  | nil => exact h
  | cons b p ih =>
    rw [runAccesses] at h
    cases hb : performAccess b (s.setQueue []) with
    | fault f => rw [hb] at h; cases h
    | refused r => rw [hb] at h; cases h
    | next u =>
      rw [hb, andThen_next, ← State.setQueue_of_hostQueue_eq (performAccess_hostQueue hb)] at h
      have hstep : step (s.setQueue ((b :: p).map HostEvent.access)) = .next (u.setQueue (p.map HostEvent.access)) :=
        calc step (s.setQueue ((b :: p).map HostEvent.access))
          _ = performAccess b ((s.setQueue []).setQueue (p.map HostEvent.access)) :=
            step_of_event (s := s.setQueue ((b :: p).map HostEvent.access)) rfl
          _ = .next (u.setQueue (p.map HostEvent.access)) := by rw [performAccess_setQueue, hb]; rfl
      exact (run_succ p.length hstep).trans (ih h)

end Sys2Proof.Machine
end

section
/-! The obligations of `spec/20_memory.md` on unwritten bytes and on runs. -/

open Sys2Proof Sys2Proof.Machine

/-- Settles O22: when a read and a decode need an unwritten byte, and that only power-on reset unwrites one. -/
theorem unwrittenBytesFaultUntilWritten : Obligations.UnwrittenBytesFaultUntilWritten := by
  refine ⟨fun s j => busRead_ibufAddr_error_iff, fun i s hi => exec_decode_fault_iff hi s,
    fun s t j i d hj hi h => ?_, fun s t k => step_keeps_written, fun s k => rfl⟩
  cases (busWrite_ibufAddr hj d).symm.trans h
  exact Option.isSome_of_eq_some (Memory.read_writeWord_byte s.ibuf j d hi)

/-- Settles O23: every step answers a next state or has to read an unwritten byte. -/
theorem onlyUnwrittenBytesStopAStep : Obligations.OnlyUnwrittenBytesStopAStep := by
  refine ⟨fun s r h => ?_, fun s f h => ?_⟩
  · rcases step_next_or_fault s with ⟨t, ht⟩ | ⟨e, rest, f, -, hfault, -⟩
    · cases ht.symm.trans h
    · cases hfault.symm.trans h
  · rcases step_next_or_fault s with ⟨t, ht⟩ | ⟨e, rest, f', hq, hfault, hun⟩
    · cases ht.symm.trans h
    · cases hfault.symm.trans h
      refine ⟨rest, ?_⟩
      cases hun with
      | decode hd hlow hhigh hread => exact .inl ⟨_, _, hq, hd, rfl, hlow, hhigh, hread⟩
      | busRead ha hj hi hread => exact .inr ⟨_, _, _, hq, rfl, ha, hj, hi, hread⟩

/-- Settles O57: a step stops only on an event that may read IBUF, and the host's queue only gets shorter. -/
theorem runsThatReadNoIbufAreSafe : Obligations.RunsThatReadNoIbufAreSafe :=
  fun _ _ => safeRun_of_not_mayReadIbuf

/-- Settles O58: an access does the same whatever events wait behind it, so the run takes them one by one. -/
theorem hostProgramsRunStepByStep : Obligations.HostProgramsRunStepByStep :=
  fun _ _ _ => run_of_runAccesses

end

section
/-! SUPPORT. The command decoder against the encoder (`spec/30_encoding.md` R81 to R83, R87, R90): the rows of the
opcode table, and which words are command words. -/

namespace Sys2Proof

/-! ### The opcode table -/

/-- Every row of the opcode table compares the whole word with its command's word (R87). -/
theorem opcodeTable_rows : ∀ r ∈ opcodeTable, r.mask = BitVec.allOnes 64 ∧ r.pattern = encode r.instr := by decide

/-- A row selects exactly the command word of its command. -/
theorem OpcodeRow.selects_iff {r : OpcodeRow} (hr : r ∈ opcodeTable) (d : Word) :
    r.selects d = true ↔ d = encode r.instr := by
  obtain ⟨hmask, hpattern⟩ := opcodeTable_rows r hr
  rw [OpcodeRow.selects, hmask, hpattern, BitVec.and_allOnes, beq_iff_eq]

/-- Every command has its row in the opcode table. -/
theorem decodeByTable_encode (i : Instr) : decodeByTable (encode i) = some i := by cases i <;> rfl

/-- The table selects a command exactly for that command's word (R87). -/
theorem decodeByTable_eq_some_iff {d : Word} {i : Instr} : decodeByTable d = some i ↔ d = encode i := by
  constructor
  · intro h
    obtain ⟨r, hfind, rfl⟩ := Option.map_eq_some_iff.1 h
    have hselects : r.selects d = true := List.find?_some (p := fun r : OpcodeRow => r.selects d) hfind
    exact (OpcodeRow.selects_iff (List.mem_of_find?_eq_some hfind) d).1 hselects
  · rintro rfl
    exact decodeByTable_encode i

/-- The mask and match form of the decoder selects what the decoder selects (R87). -/
theorem decodeByTable_eq_toOption (d : Word) : decodeByTable d = (decode d).toOption := by
  have htoOption : ∀ i, (decode d).toOption = some i ↔ decode d = .ok i := fun i => by
    cases decode d <;> simp [Except.toOption]
  ext i
  rw [decodeByTable_eq_some_iff, htoOption, Machine.decode_eq_ok_iff]

/-- The check of the reserved bits comes before the opcode (R82, R87). -/
theorem decode_of_reservedField_ne {d : Word} (h : reservedField d ≠ 0#56) : decode d = .error .reservedBitsSet :=
  if_pos h

/-! ### Which words are command words -/

/-- The command words, in the order of R81. -/
theorem commandWords :
    [Instr.nop, .enc, .dec, .deca, .zze32, .zze64, .zzd32, .zzd64, .clrs, .srst].map (fun i => (encode i).toNat) =
      [0x00, 0x01, 0x02, 0x03, 0x04, 0x05, 0x06, 0x07, 0x08, 0x0F] := rfl

/-- An assigned opcode is the command word of some command, as a number (R81). -/
theorem exists_encode_of_opcodeAssigned {d : Word} (h : opcodeAssigned d = true) :
    ∃ i, (encode i).toNat = (opcodeField d).toNat := by
  have hmem := of_decide_eq_true h
  rw [← commandWords] at hmem
  obtain ⟨i, -, hi⟩ := List.mem_map.1 hmem
  exact ⟨i, hi⟩

/-- A word passes both checks of a command word exactly when it is the word of some command (R82, R83, R90). -/
theorem wellFormedWord_iff (d : Word) : WellFormedWord d = true ↔ ∃ i, d = encode i := by
  constructor
  · intro h
    obtain ⟨hreserved, hopcode⟩ := Bool.and_eq_true_iff.1 h
    obtain ⟨i, hi⟩ := exists_encode_of_opcodeAssigned hopcode
    refine ⟨i, BitVec.eq_of_toNat_eq ?_⟩
    calc d.toNat
      _ = ((opcodeField d).setWidth 64).toNat := by rw [Machine.setWidth_opcodeField (eq_of_beq hreserved)]
      _ = (opcodeField d).toNat := BitVec.toNat_setWidth_of_le (by decide)
      _ = (encode i).toNat := hi.symm
  · rintro ⟨i, rfl⟩
    cases i <;> rfl

/-- An OPCODE value below 0x100 that no command has (R83). -/
abbrev ReservedOpcode (op : Nat) : Prop := (0x09 ≤ op ∧ op ≤ 0x0E) ∨ 0x10 ≤ op

/-- A word fails one of the two checks exactly when a bit of 63:8 is set or its OPCODE is reserved (R82, R83). -/
theorem wellFormedWord_eq_false_iff (d : Word) :
    WellFormedWord d = false ↔ d.extractLsb' 8 56 ≠ 0#56 ∨ ReservedOpcode (d.extractLsb' 0 8).toNat := by
  have hopcode : opcodeAssigned d = false ↔ ReservedOpcode (d.extractLsb' 0 8).toNat := by
    simp only [opcodeAssigned, ReservedOpcode, decide_eq_false_iff_not, List.mem_cons, List.not_mem_nil, or_false]
    omega
  rw [WellFormedWord, Bool.and_eq_false_iff, hopcode, reservedBitsClear, beq_eq_false_iff_ne]

/-- The words that are no command's are those with a reserved bit or a reserved OPCODE (R82, R83). -/
theorem forall_ne_encode_iff (d : Word) :
    (∀ i, d ≠ encode i) ↔ d.extractLsb' 8 56 ≠ 0#56 ∨ ReservedOpcode (d.extractLsb' 0 8).toNat := by
  rw [← wellFormedWord_eq_false_iff, ← Bool.not_eq_true, wellFormedWord_iff, not_exists]

/-- The reserved OPCODE values number 246: six below 0x10, and all 240 from there up (R83). -/
theorem reservedOpcodes_length : ((List.range 256).filter fun op => decide (ReservedOpcode op)).length = 246 := by
  have hlow : ((List.range 16).filter fun op => decide (ReservedOpcode op)).length = 6 := by decide
  have hhigh : ((List.range 240).map (16 + ·)).filter (fun op => decide (ReservedOpcode op)) =
      (List.range 240).map (16 + ·) := by
    simp [List.filter_eq_self, ReservedOpcode]
  rw [show 256 = 16 + 240 from rfl, List.range_add, List.filter_append, List.length_append, hlow, hhigh,
    List.length_map, List.length_range]

end Sys2Proof
end

section
/-! SUPPORT. What a decode depends on (`spec/30_encoding.md` R85, `spec/41_varint_decoder.md` R125): OFFSET, ILEN and
at most ten bytes of IBUF from OFFSET. -/

namespace Sys2Proof.Machine

/-- The decode loop reads no byte outside those it may still consume. -/
theorem decodeLoop_congr {m m' : Memory} {p left i : Nat}
    (h : ∀ k, i ≤ k → k < i + left → Memory.read m' (p + k) = Memory.read m (p + k)) (e : Nat) (acc : Word) :
    decodeLoop m' p e left i acc = decodeLoop m p e left i acc := by
  induction left generalizing i acc with
  | zero => rfl
  | succ left ih =>
    have hrest := ih (i := i + 1) fun k hlow hhigh => h k (by omega) (by omega)
    simp only [decodeLoop, h i (by omega) (by omega), hrest]

/-- Memories that agree on ten bytes from the start decode alike (R125). -/
theorem varintDecode_congr {m m' : Memory} {p : Nat} (h : AgreeOn m m' p 10) (e : Nat) :
    varintDecode m' p e = varintDecode m p e :=
  decodeLoop_congr (fun k _ hk => h k (by omega)) e _

/-- Where the decode succeeds, DEC and DECA record it (R126, R127). -/
theorem exec_decode_of_ok {i : Instr} {s : State} {v : Word} {c : Nat} (hi : i = .dec ∨ i = .deca)
    (hok : varintDecode s.ibuf s.offset.toNat s.ilen.toNat = .ok v c) :
    exec i s = .next { s with
      out := v
      cnt := BitVec.ofNat 4 c
      offset := if i = .deca then s.offset + BitVec.ofNat 16 c else s.offset
      status := s.status.terminated } := by
  have hcommand : ∀ onOk, decodeCommand onOk s = .next (onOk v c s) := fun onOk => by
    simp only [decodeCommand, decodeStart, decodeEnd, hok]
  rcases hi with rfl | rfl
  · exact hcommand recordDecoded
  · exact hcommand fun v c s => advanceOffset c (recordDecoded v c s)

/-- DEC and DECA leave the same in two states with the same OFFSET, ILEN and ten bytes of IBUF from OFFSET. -/
theorem exec_decode_agree {i : Instr} {s s' t : State} (hi : i = .dec ∨ i = .deca) (hoffset : s.offset = s'.offset)
    (hilen : s.ilen = s'.ilen) (hagree : AgreeOn s.ibuf s'.ibuf s.offset.toNat 10) (h : exec i s = .next t) :
    ∃ t', exec i s' = .next t' ∧ t'.cnt = t.cnt ∧ t'.status.err = t.status.err ∧
      t'.status.dstate = t.status.dstate ∧ t'.offset = t.offset ∧ (t.status.err = 0#4 → t'.out = t.out) := by
  have hsame : varintDecode s'.ibuf s'.offset.toNat s'.ilen.toNat =
      varintDecode s.ibuf s.offset.toNat s.ilen.toNat := by
    rw [← hoffset, ← hilen, varintDecode_congr hagree]
  rcases exec_decode_cases hi h with ⟨v, c, hok, rfl⟩ | ⟨e, herr, hdecode, rfl⟩
  · exact ⟨_, exec_decode_of_ok hi (hsame.trans hok), by simp [hoffset]⟩
  · exact ⟨_, exec_decode_of_err hi (hsame.trans herr), by simp [hdecode, hoffset]⟩

end Sys2Proof.Machine
end

section
/-! The obligations of `spec/30_encoding.md`. -/

open Sys2Proof Sys2Proof.Machine

/-- Settles O4: the decoder and the table both select a command exactly for its word, so every other word raises
IllegalCommand. -/
theorem everyWordSelectsExactlyOneOutcome : Obligations.EveryWordSelectsExactlyOneOutcome := by
  refine ⟨commandWords, fun _ _ => decode_eq_ok_iff, fun _ => decode_of_reservedField_ne, ?_,
    fun _ s hd => busWrite_cmdAddr_illegal hd s, decodeByTable_eq_toOption, by decide⟩
  intro d s i hd
  rw [busWrite_cmdAddr, commandWrite_of_decode_ok (decode_eq_ok_iff.2 hd)]

/-- Settles O5: the reserved words are those that no command has, and raising IllegalCommand writes ERR and STICKY. -/
theorem reservedWordsRaiseIllegalCommand : Obligations.ReservedWordsRaiseIllegalCommand :=
  ⟨fun d s hd => busWrite_cmdAddr_illegal ((forall_ne_encode_iff d).2 hd) s, forall_ne_encode_iff,
    reservedOpcodes_length⟩

/-- Settles O56: ENC and the ZigZag commands compute their results from IN, and a decode reads OFFSET, ILEN and ten
bytes of IBUF. -/
theorem resultsDependOnlyOnOperands : Obligations.ResultsDependOnlyOnOperands := by
  refine ⟨fun s s' hin => ⟨_, _, exec_enc s, exec_enc s', by simp [hin]⟩, ?_, fun i s s' t => exec_decode_agree⟩
  rintro i s s' (rfl | rfl | rfl | rfl) hin
  · exact ⟨_, _, exec_zze32 s, exec_zze32 s', by simp [hin]⟩
  · exact ⟨_, _, exec_zze64 s, exec_zze64 s', by simp [hin]⟩
  · exact ⟨_, _, exec_zzd32 s, exec_zzd32 s', by simp [hin]⟩
  · exact ⟨_, _, exec_zzd64 s, exec_zzd64 s', by simp [hin]⟩

/-- Settles O3: each of the ten words is the word `encode` gives its command, and decodes back to it. -/
theorem decodesTheTenCommandWords : Obligations.DecodesTheTenCommandWords :=
  ⟨decode_encode .nop, rfl, decode_encode .enc, rfl, decode_encode .dec, rfl, decode_encode .deca, rfl,
    decode_encode .zze32, rfl, decode_encode .zze64, rfl, decode_encode .zzd32, rfl, decode_encode .zzd64, rfl,
    decode_encode .clrs, rfl, decode_encode .srst, rfl⟩

end

section
/-! SUPPORT. The value of a byte string read as a varint (`spec/40_varint_encoder.md` R100): its base-128 digits are the
payloads, so length and value determine a varint. -/

namespace Sys2Proof.Machine

/-! ### A byte is its payload and its continuation flag -/

/-- Bytes with the same payload and the same continuation flag are equal. -/
theorem eq_of_payload_of_continues {a b : Byte} (hpayload : payload a = payload b)
    (hflag : continues a = continues b) : a = b := by
  apply BitVec.eq_of_getLsbD_eq
  intro j hj
  by_cases h7 : j = 7
  · subst h7
    exact hflag
  · have hbit := congrArg (fun g => g.getLsbD j) hpayload
    simpa [payload, BitVec.getLsbD_extractLsb', show j < 7 by omega] using hbit

/-- A tenth byte fits in 64 bits exactly when it ends the varint and its payload is 0 or 1 (R121, R123). -/
theorem tenthByteOverflows_eq_false_iff (b : Byte) :
    tenthByteOverflows b = false ↔ continues b = false ∧ (payload b).toNat < 2 := by
  revert b
  decide

/-! ### Values and their digits -/

@[simp] theorem varintValue_nil : varintValue [] = 0 := rfl

/-- The first byte carries the lowest seven bits of the value. -/
theorem varintValue_cons (b : Byte) (bs : List Byte) :
    varintValue (b :: bs) = (payload b).toNat + 2 ^ 7 * varintValue bs := by
  have hterm : ∀ i, (payload (bs.getD i 0#8)).toNat * 2 ^ (7 * (i + 1)) =
      2 ^ 7 * ((payload (bs.getD i 0#8)).toNat * 2 ^ (7 * i)) := fun i => by ring
  simp only [varintValue, List.length_cons, List.range_succ_eq_map, List.map_cons, List.map_map, List.sum_cons,
    Function.comp_def, List.getD_cons_succ, List.getD_cons_zero, Nat.succ_eq_add_one, hterm, List.sum_map_mul_left]
  simp

/-- The value of `k` bytes has at most `7k` bits. -/
theorem varintValue_lt (bs : List Byte) : varintValue bs < 2 ^ (7 * bs.length) := by
  induction bs with
  | nil => simp
  | cons b bs ih =>
    have hb := (payload b).isLt
    rw [varintValue_cons, List.length_cons, Nat.mul_succ, Nat.add_comm (7 * _), Nat.pow_add]
    omega

/-- The payload of byte `i` is digit `i` of the value in base 128; past the end both are zero. -/
theorem payload_getD_toNat (bs : List Byte) (i : Nat) :
    (payload (bs.getD i 0#8)).toNat = varintValue bs / 2 ^ (7 * i) % 2 ^ 7 := by
  induction bs generalizing i with
  | nil => simp [payload]
  | cons b bs ih =>
    have hb := (payload b).isLt
    rw [varintValue_cons]
    cases i with
    | zero =>
      rw [List.getD_cons_zero, Nat.mul_zero, Nat.pow_zero, Nat.div_one]
      omega
    | succ i =>
      rw [List.getD_cons_succ, ih, Nat.mul_succ, Nat.add_comm (7 * i), Nat.pow_add, ← Nat.div_div_eq_div_mul,
        Nat.add_mul_div_left _ _ (by decide), Nat.div_eq_of_lt hb, Nat.zero_add]

/-- A string of at most ten bytes has a 64-bit value exactly when the payload of its tenth byte is 0 or 1 (R123). -/
theorem varintValue_lt_two_pow_64_iff {bs : List Byte} (hlen : bs.length ≤ 10) :
    varintValue bs < 2 ^ 64 ↔ (payload (bs.getD 9 0#8)).toNat < 2 := by
  have hlt : varintValue bs < 2 ^ 70 :=
    (varintValue_lt bs).trans_le (Nat.pow_le_pow_right (by decide) (by omega))
  rw [payload_getD_toNat]
  omega

/-- Two varints with the same length and the same value are the same bytes (R100). -/
theorem IsVarint.eq_of_length_of_value {bs bs' : List Byte} (hbs : IsVarint bs) (hbs' : IsVarint bs')
    (hlen : bs.length = bs'.length) (hvalue : varintValue bs = varintValue bs') : bs = bs' := by
  obtain ⟨hpos, -, hrun, hlast⟩ := hbs
  obtain ⟨-, -, hrun', hlast'⟩ := hbs'
  refine List.ext_getElem hlen fun i hi hi' => ?_
  rw [← List.getD_eq_getElem _ 0#8, ← List.getD_eq_getElem _ 0#8]
  apply eq_of_payload_of_continues
  · apply BitVec.eq_of_toNat_eq
    rw [payload_getD_toNat, payload_getD_toNat, hvalue]
  · rcases Nat.lt_or_ge i (bs.length - 1) with hbelow | habove
    · rw [hrun i hbelow, hrun' i (by omega)]
    · obtain rfl : i = bs.length - 1 := by omega
      rw [hlast, hlen, hlast']

end Sys2Proof.Machine
end

section
/-! SUPPORT. The encode function without its bound (`spec/40_varint_encoder.md` R101): one equation per branch of the
loop, induction over the shifts, and from them the value and the length of an encoding (R102). -/

namespace Sys2Proof.Machine

/-! ### One shift by seven -/

/-- Shifting right by 7 divides by 128. -/
theorem toNat_shiftRight_seven (n : Word) : (n >>> 7).toNat = n.toNat / 2 ^ 7 := by
  rw [BitVec.toNat_ushiftRight, Nat.shiftRight_eq_div_pow]

/-- Nothing is left after the shift exactly when the value has one group. -/
theorem shiftRight_seven_eq_zero_iff (n : Word) : n >>> 7 = 0#64 ↔ n.toNat < 2 ^ 7 := by
  rw [← BitVec.toNat_inj, toNat_shiftRight_seven, BitVec.toNat_ofNat]
  omega

/-- A group is the value modulo 128. -/
theorem toNat_lowGroup (n : Word) : (n.extractLsb' 0 7).toNat = n.toNat % 2 ^ 7 := by
  rw [BitVec.extractLsb'_toNat, Nat.shiftRight_zero]

/-- Induction along the shifts of R101: from what is left to the value, down to one group. -/
theorem shift_induction {P : Word → Prop} (last : ∀ n : Word, n >>> 7 = 0#64 → P n)
    (more : ∀ n : Word, n >>> 7 ≠ 0#64 → P (n >>> 7) → P n) (n : Word) : P n := by
  by_cases h : n >>> 7 = 0#64
  · exact last n h
  · exact more n h (shift_induction last more (n >>> 7))
termination_by n.toNat
decreasing_by
  rw [shiftRight_seven_eq_zero_iff] at h
  rw [toNat_shiftRight_seven]
  omega

/-! ### The equation of the loop -/

theorem encodeLoop_succ (k : Nat) (v : Word) : encodeLoop (k + 1) v =
    if v >>> 7 ≠ 0#64 then (0x80#8 ||| groupOf v) :: encodeLoop k (v >>> 7) else [groupOf v] := rfl

/-- A bound that the value's groups do not exceed can be one larger. -/
theorem encodeLoop_succ_of_lt {k : Nat} {v : Word} (hpos : 1 ≤ k) (hv : v.toNat < 2 ^ (7 * k)) :
    encodeLoop (k + 1) v = encodeLoop k v := by
  induction k, hpos using Nat.le_induction generalizing v with
  | base =>
    have hdone : ¬ v >>> 7 ≠ 0#64 := not_not.2 ((shiftRight_seven_eq_zero_iff v).2 hv)
    exact (if_neg hdone).trans (if_neg hdone).symm
  | succ k _ ih =>
    have hsmall : (v >>> 7).toNat < 2 ^ (7 * k) := by
      rw [toNat_shiftRight_seven]
      exact Nat.div_lt_of_lt_mul (by rwa [← Nat.pow_add, Nat.add_comm])
    rw [encodeLoop_succ (k + 1), ih hsmall, ← encodeLoop_succ]

/-- A value of one group is encoded in one byte (R101). -/
theorem varintEncode_of_last {n : Word} (h : n >>> 7 = 0#64) : varintEncode n = [groupOf n] :=
  if_neg (not_not.2 h)

/-- Otherwise the first group comes with its continuation flag, before the encoding of what is left (R101). -/
theorem varintEncode_of_more {n : Word} (h : n >>> 7 ≠ 0#64) :
    varintEncode n = (0x80#8 ||| groupOf n) :: varintEncode (n >>> 7) := by
  have hsmall : (n >>> 7).toNat < 2 ^ (7 * 9) := by
    rw [toNat_shiftRight_seven]
    omega
  rw [varintEncode, varintEncode, encodeLoop_succ_of_lt (by decide) hsmall, encodeLoop_succ, if_pos h]

/-! ### Value and length of an encoding -/

/-- The value of an encoding is its operand (R100, R101). -/
theorem varintValue_varintEncode (n : Word) : varintValue (varintEncode n) = n.toNat := by
  induction n using shift_induction with
  | last n h =>
    have hn := (shiftRight_seven_eq_zero_iff n).1 h
    rw [varintEncode_of_last h, varintValue_cons, payload_groupOf, toNat_lowGroup, varintValue_nil]
    omega
  | more n h ih =>
    rw [varintEncode_of_more h, varintValue_cons, payload_or_groupOf, toNat_lowGroup, ih, toNat_shiftRight_seven]
    omega

/-- An encoding has at most `l` bytes exactly when the operand has at most `7l` bits (R102). -/
theorem varintEncode_length_le_iff (n : Word) {l : Nat} (hl : 1 ≤ l) :
    (varintEncode n).length ≤ l ↔ n.toNat < 2 ^ (7 * l) := by
  induction n using shift_induction generalizing l with
  | last n h =>
    have hn := (shiftRight_seven_eq_zero_iff n).1 h
    rw [varintEncode_of_last h]
    exact iff_of_true hl (hn.trans_le (Nat.pow_le_pow_right (by decide) (by omega)))
  | more n h ih =>
    obtain ⟨hpos, -⟩ := varintEncode_isVarint (n >>> 7)
    rw [varintEncode_of_more h, List.length_cons]
    rw [Ne, shiftRight_seven_eq_zero_iff] at h
    obtain ⟨l, rfl⟩ := Nat.exists_eq_add_of_le' hl
    rcases Nat.eq_zero_or_pos l with rfl | hl
    · exact iff_of_false (by omega) h
    · rw [Nat.add_le_add_iff_right, ih hl, toNat_shiftRight_seven, Nat.div_lt_iff_lt_mul (by decide), ← Nat.pow_add,
        Nat.mul_succ]

/-- The length is the bit length of the operand in groups of seven, and at least 1 (R102). -/
theorem varintEncode_length (n : Word) : (varintEncode n).length = max 1 ((Nat.size n.toNat + 6) / 7) := by
  obtain ⟨hpos, -⟩ := varintEncode_isVarint n
  have hle : ∀ l, 1 ≤ l → ((varintEncode n).length ≤ l ↔ Nat.size n.toNat ≤ 7 * l) := fun l hl => by
    rw [varintEncode_length_le_iff n hl, Nat.size_le]
  have hupper := (hle (max 1 ((Nat.size n.toNat + 6) / 7)) (by omega)).2 (by omega)
  have hlower := (hle _ hpos).1 (Nat.le_refl _)
  omega

/-- A larger operand has no shorter encoding (R102). -/
theorem varintEncode_length_mono {n n' : Word} (h : n.toNat ≤ n'.toNat) :
    (varintEncode n).length ≤ (varintEncode n').length := by
  obtain ⟨hpos, -⟩ := varintEncode_isVarint n'
  rw [varintEncode_length_le_iff n hpos]
  exact h.trans_lt ((varintEncode_length_le_iff n' hpos).1 (Nat.le_refl _))

/-- The operands whose encodings have `l` bytes (R102). -/
theorem varintEncode_length_eq_iff (n : Word) {l : Nat} (hl : 1 ≤ l) :
    (varintEncode n).length = l ↔ (l = 1 ∨ 2 ^ (7 * (l - 1)) ≤ n.toNat) ∧ n.toNat < 2 ^ min (7 * l) 64 := by
  obtain ⟨hpos, -⟩ := varintEncode_isVarint n
  have hmin : n.toNat < 2 ^ min (7 * l) 64 ↔ n.toNat < 2 ^ (7 * l) := by
    rw [(pow_right_mono₀ (by decide : 1 ≤ 2)).map_min, lt_min_iff]
    exact and_iff_left n.isLt
  rw [hmin, ← varintEncode_length_le_iff n hl]
  rcases Nat.eq_or_lt_of_le hl with rfl | hl
  · omega
  · have hshorter := varintEncode_length_le_iff n (l := l - 1) (by omega)
    omega

/-- A ten-byte encoding ends in 0x01: only bit 63 is left for its tenth group (R102). -/
theorem varintEncode_getLast?_of_length_ten {n : Word} (h : (varintEncode n).length = 10) :
    (varintEncode n).getLast? = some 0x01#8 := by
  obtain ⟨-, -, -, hlast⟩ := varintEncode_isVarint n
  have hlarge : ¬ n.toNat < 2 ^ (7 * 9) := by
    rw [← varintEncode_length_le_iff n (by decide)]
    omega
  have htenth : (varintEncode n).getD 9 0#8 = 0x01#8 := by
    rw [h] at hlast
    refine eq_of_payload_of_continues (BitVec.eq_of_toNat_eq ?_) hlast
    rw [payload_getD_toNat, varintValue_varintEncode, show (payload 0x01#8).toNat = 1 from rfl]
    omega
  rw [List.getLast?_eq_getElem?, h, ← htenth, List.getD_eq_getElem _ _ (by omega), List.getElem?_eq_getElem]

end Sys2Proof.Machine
end

section
/-! SUPPORT. The decode of a varint that lies in the buffer (`spec/41_varint_decoder.md` R121, R124): after `i` bytes
the accumulator holds the low `7i` bits of its value. -/

namespace Sys2Proof.Machine

/-- Putting digit `i` of a 64-bit value above its low `7i` bits gives its low `7(i+1)` bits. -/
theorem toNat_or_digit {value i : Nat} {acc : Word} {g : BitVec 7} (hvalue : value < 2 ^ 64)
    (hacc : acc.toNat = value % 2 ^ (7 * i)) (hg : g.toNat = value / 2 ^ (7 * i) % 2 ^ 7) :
    (acc ||| g.setWidth 64 <<< (7 * i)).toNat = value % 2 ^ (7 * (i + 1)) := by
  have hsplit : value % 2 ^ (7 * (i + 1)) = 2 ^ (7 * i) * g.toNat + acc.toNat := by
    rw [hg, hacc, Nat.mul_succ, Nat.pow_add, Nat.mod_mul, Nat.add_comm]
  have hle := Nat.mod_le value (2 ^ (7 * (i + 1)))
  have hwidth := g.isLt
  have hshift : (g.setWidth 64 <<< (7 * i)).toNat = 2 ^ (7 * i) * g.toNat := by
    rw [BitVec.toNat_shiftLeft, BitVec.toNat_setWidth_of_le (by decide), Nat.shiftLeft_eq, Nat.mul_comm,
      Nat.mod_eq_of_lt (by omega)]
  have hlow : acc.toNat < 2 ^ (7 * i) := hacc ▸ Nat.mod_lt _ (Nat.two_pow_pos _)
  rw [BitVec.toNat_or, hshift, Nat.or_comm, ← Nat.two_pow_add_eq_or_of_lt hlow, hsplit]

section decodeOfVarint
variable {m : Memory} {p e : Nat} {bs : List Byte} (hbs : IsVarint bs) (hbytes : BytesAt m p bs)
  (hend : p + bs.length ≤ e) (hvalue : varintValue bs < 2 ^ 64)
include hbs hbytes hend hvalue

/-- Inside a varint of a 64-bit value the loop runs on to its terminator and answers its value and length. -/
theorem decodeLoop_of_varint {left i : Nat} {acc : Word} (hleft : i + left = 10) (hi : i < bs.length)
    (hacc : acc.toNat = varintValue bs % 2 ^ (7 * i)) :
    decodeLoop m p e left i acc = .ok (BitVec.ofNat 64 (varintValue bs)) bs.length := by
  obtain ⟨-, hmax, hrun, hlast⟩ := hbs
  induction left generalizing i acc with
  | zero => omega
  | succ left ih =>
    have hacc' := toNat_or_digit hvalue hacc (payload_getD_toNat bs i)
    have hfits : ¬ (i = 9 ∧ tenthByteOverflows (bs.getD i 0#8) = true) := by
      rintro ⟨rfl, hover⟩
      rw [show bs.length - 1 = 9 by omega] at hlast
      rw [(tenthByteOverflows_eq_false_iff _).2 ⟨hlast, (varintValue_lt_two_pow_64_iff hmax).1 hvalue⟩] at hover
      cases hover
    rw [decodeLoop, if_neg (by omega)]
    simp only [hbytes i hi, if_neg hfits]
    rcases Nat.lt_or_ge i (bs.length - 1) with hmore | hdone
    · rw [if_pos (hrun i hmore)]
      exact ih (by omega) (by omega) hacc'
    · obtain rfl : i = bs.length - 1 := by omega
      rw [Nat.sub_add_cancel (by omega)] at hacc' ⊢
      rw [hlast, if_neg Bool.false_ne_true, ← Nat.mod_eq_of_lt (varintValue_lt bs), ← hacc', BitVec.ofNat_toNat,
        BitVec.setWidth_eq]

/-- A decode of a varint of a 64-bit value in the buffer answers its value and length (R121, R124). -/
theorem varintDecode_of_varint : varintDecode m p e = .ok (BitVec.ofNat 64 (varintValue bs)) bs.length :=
  decodeLoop_of_varint hbs hbytes hend hvalue rfl hbs.1 (Nat.mod_one _).symm

end decodeOfVarint

/-- The varint up to a terminator the decode accepts has a 64-bit value (R123, R124). -/
theorem TerminatedAt.varintValue_lt {m : Memory} {p e n : Nat} {bs : List Byte} (h : TerminatedAt m p e n)
    (hlen : bs.length = n + 1) (hbytes : BytesAt m p bs) : varintValue bs < 2 ^ 64 := by
  obtain ⟨hn, -, -, b, hread, -, hfits⟩ := h
  rw [varintValue_lt_two_pow_64_iff (by omega)]
  by_cases h9 : n = 9
  · subst h9
    rw [Option.some.inj ((hbytes 9 (by omega)).symm.trans hread)]
    exact ((tenthByteOverflows_eq_false_iff b).1 (hfits rfl)).2
  · rw [List.getD_eq_default _ _ (by omega)]
    decide

end Sys2Proof.Machine
end

section
/-! SUPPORT. What the stream encoder of the host reads back (`spec/40_varint_encoder.md` R104): ELEN and the two EBUF
words after ENC give the bytes of the encoding. -/

namespace Sys2Proof.Machine

/-! ### Registers of the host's lines -/

theorem readReg_ebuf0 (s : State) :
    readReg .ebuf0 s = .next (ebuf0Word s.ebuf, s.addRead (ebuf0Word s.ebuf)) := by
  simp only [readReg, RegName.addr, busRead_ebuf0Addr]

theorem readReg_ebuf1 (s : State) :
    readReg .ebuf1 s = .next (ebuf1Word s.ebuf, s.addRead (ebuf1Word s.ebuf)) := by
  simp only [readReg, RegName.addr, busRead_ebuf1Addr]

/-- `wr IN, d` writes IN. -/
theorem runLines_wrIn (d : Word) (s : State) : runLines [.wr .inReg d.toNat] s = .next (s.setIn d) := by
  simp only [runLines, List.map_cons, List.map_nil, AsmLine.access, runAccesses, performAccess, RegName.addr,
    busWrite_inAddr, BitVec.ofInt_natCast, BitVec.ofNat_toNat, BitVec.setWidth_eq, andThen_next]

/-- `encode v` runs ENC with `v` in IN (R89). -/
theorem runLines_encode (v : Word) (s : State) :
    runLines (Pseudo.lines (.encode v.toNat)) s = exec .enc (s.setIn v) := by
  rw [show Pseudo.lines (.encode v.toNat) = [.wr .inReg v.toNat] ++ [.cmd .enc] from rfl, runLines_append,
    runLines_wrIn, andThen_next, runLines_cmd]

/-! ### The bytes read back -/

/-- The two EBUF words unpack to the ten bytes of EBUF and six zeros (R65). -/
theorem unpackWord_ebufWords (bs : List Byte) :
    unpackWord (ebuf0Word (ebufOf bs)) ++ unpackWord (ebuf1Word (ebufOf bs)) =
      (ebufOf bs).toList ++ List.replicate 6 0#8 := by
  simp only [unpackWord, ebuf0Word, ebuf1Word, byteOf_packWord, Nat.reduceLT]
  rfl

/-- The host reads back the bytes that ENC left in EBUF (R104). -/
theorem encodedBytes_ebufOf {bs : List Byte} (h : bs.length ≤ 10) :
    encodedBytes bs.length (ebuf0Word (ebufOf bs)) (ebuf1Word (ebufOf bs)) = bs := by
  rw [encodedBytes, unpackWord_ebufWords, List.take_append_of_le_length (by simpa using h), ebufOf_take h]

/-- Encoding one value and reading it back completes and gives its encoding (R104). -/
theorem streamEncodeOne_next (v : Word) (s : State) : ∃ t, streamEncodeOne v s = .next (varintEncode v, t) := by
  obtain ⟨-, hmax, -⟩ := varintEncode_isVarint v
  have helen : ((BitVec.ofNat 4 (varintEncode v).length).setWidth 64).toNat = (varintEncode v).length := by
    rw [BitVec.toNat_setWidth_of_le (by decide), varintEncode_length_toNat]
  simp [streamEncodeOne, runLines_encode, exec_enc, readReg_elen, readReg_ebuf0, readReg_ebuf1, -BitVec.toNat_setWidth,
    helen, encodedBytes_ebufOf hmax]

/-- The stream encoder completes and gives the encodings in order (R104). -/
theorem streamEncode_next (vs : List Word) (s : State) :
    ∃ t, streamEncode vs s = .next ((vs.map varintEncode).flatten, t) := by
  induction vs generalizing s with
  | nil => exact ⟨s, rfl⟩
  | cons v vs ih =>
    obtain ⟨s', hone⟩ := streamEncodeOne_next v s
    obtain ⟨t, hrest⟩ := ih s'
    refine ⟨t, ?_⟩
    simp only [streamEncode, hone, hrest, andThen_next, List.map_cons, List.flatten_cons]

end Sys2Proof.Machine
end

section
/-! The obligations of `spec/40_varint_encoder.md`, and what the decode makes of a varint. -/

open Sys2Proof Sys2Proof.Machine

/-- Settles O24: the two branches of the loop without its bound, and the length of a varint. -/
theorem encodeFollowsItsLoop : Obligations.EncodeFollowsItsLoop := by
  refine ⟨fun n => ?_, varintEncode_of_last rfl, fun n => ?_⟩
  · split
    · exact varintEncode_of_last ‹_›
    · exact varintEncode_of_more ‹_›
  · obtain ⟨hpos, hmax, -⟩ := varintEncode_isVarint n
    exact ⟨hpos, hmax⟩

/-- Settles O25: the output is a varint, and its value is built up along the shifts. -/
theorem encodeProducesAVarintOfItsOperand : Obligations.EncodeProducesAVarintOfItsOperand :=
  fun n => ⟨varintEncode_isVarint n, varintValue_varintEncode n⟩

/-- Settles O26: every clause is read off `varintEncode_length_le_iff`, the operands that `l` bytes can hold. -/
theorem encodeLengthFollowsTheBitLength : Obligations.EncodeLengthFollowsTheBitLength :=
  ⟨varintEncode_length, fun _ _ => varintEncode_length_mono, fun n _ hl _ => varintEncode_length_eq_iff n hl,
    fun _ => varintEncode_getLast?_of_length_ten⟩

/-- Settles O27: fewer bytes cannot hold the operand, and length and value determine a varint. -/
theorem encodeIsTheShortestVarint : Obligations.EncodeIsTheShortestVarint := by
  intro n bs hbs hvalue
  have ⟨hpos, _⟩ := hbs
  refine ⟨(varintEncode_length_le_iff n hpos).2 (hvalue ▸ varintValue_lt bs), fun hlen => ?_⟩
  exact hbs.eq_of_length_of_value (varintEncode_isVarint n) hlen (hvalue.trans (varintValue_varintEncode n).symm)

/-- Settles O28: the equation of ENC; past the encoding's end EBUF holds the default byte 0. -/
theorem encWritesTheEncodingOfIn : Obligations.EncWritesTheEncodingOfIn := by
  refine ⟨decode_encode .enc, fun s => ⟨ebufOf (varintEncode s.inReg), BitVec.ofNat 4 (varintEncode s.inReg).length,
    exec_enc s, varintEncode_length_toNat s.inReg, fun k => ?_⟩⟩
  rw [ebufOf_getElem, varintEncode_length_toNat]
  split
  · rfl
  · exact List.getD_eq_default _ _ (by omega)

/-- Settles O31: the decode of a varint answers its value and length, and a decode that succeeds stopped at the
terminator of one. -/
theorem decodeSucceedsExactlyOnAVarint : Obligations.DecodeSucceedsExactlyOnAVarint := by
  intro m p e v c
  constructor
  · intro hok
    have hcond := varintDecode_condition m p e
    obtain ⟨-, -, hend⟩ := varintDecode_ok_bounds hok
    rw [hok] at hcond
    obtain ⟨n, rfl, hterm⟩ := hcond
    obtain ⟨bs, hbs, hlen, hbytes⟩ := hterm.exists_varint
    have hvalue := hterm.varintValue_lt hlen hbytes
    have hdecode := varintDecode_of_varint hbs hbytes (hlen ▸ hend) hvalue
    obtain ⟨rfl, -⟩ := DecodeResult.ok.inj (hok.symm.trans hdecode)
    exact ⟨bs, hbs, hlen, hbytes, hend, (BitVec.toNat_ofNat _ _ ▸ Nat.mod_eq_of_lt hvalue).symm⟩
  · rintro ⟨bs, hbs, rfl, hbytes, hend, hvalue⟩
    rw [varintDecode_of_varint hbs hbytes hend (hvalue ▸ v.isLt), hvalue, BitVec.ofNat_toNat, BitVec.setWidth_eq]

/-- Settles O38: the stream encoder gives the encodings in order. -/
theorem streamEncodeConcatenates : Obligations.StreamEncodeConcatenates := streamEncode_next

end

section
/-! SUPPORT. What DEC and DECA leave for each answer of their decode (`spec/41_varint_decoder.md` R126, R127, R129),
and the bytes on which the answer rests (R125). -/

namespace Sys2Proof.Machine

/-! ### The bytes an answer rests on -/

/-- The same bytes lie in a memory that agrees on them. -/
theorem AgreeOn.bytesAt {m m' : Memory} {p : Nat} {bs : List Byte} (h : AgreeOn m m' p bs.length)
    (hbytes : BytesAt m p bs) : BytesAt m' p bs :=
  fun i hi => (h i hi).trans (hbytes i hi)

/-- The same run of continuation bytes lies in a memory that agrees on it. -/
theorem AgreeOn.continuationRun {m m' : Memory} {p n : Nat} (h : AgreeOn m m' p n)
    (hrun : ContinuationRun m p n) : ContinuationRun m' p n :=
  fun i hi => h i hi ▸ hrun i hi

/-- The bytes up to the buffer's end decide that it ends too early (R125). -/
theorem TruncatedAt.of_agreeOn {m m' : Memory} {p e : Nat} (h : TruncatedAt m p e) (hagree : AgreeOn m m' p (e - p)) :
    TruncatedAt m' p e := by
  obtain ⟨i, hi, hend, hrun⟩ := h
  exact ⟨e - p, by omega, by omega, hagree.continuationRun fun j hj => hrun j (by omega)⟩

/-- A decode that may read all its bytes meets no unwritten one (R129). -/
theorem UnwrittenAt.not_decodeReadable {m : Memory} {p e n : Nat} (h : UnwrittenAt m p e n) :
    ¬ DecodeReadable m p e := by
  obtain ⟨hn, hin, -, hread⟩ := h
  intro hreadable
  simpa [hread] using hreadable n hn hin

/-- A decode reports TruncatedInput or Overflow, each with its code and on its condition (R122, R123). -/
theorem varintDecode_err_cases {m : Memory} {p e : Nat} {k : ErrorKind} (h : varintDecode m p e = .err k) :
    (k.code = 1#4 ∧ TruncatedAt m p e) ∨ (k.code = 2#4 ∧ OverflowAt m p e) := by
  cases k with
  | truncatedInput => exact .inl ⟨rfl, (varintDecode_truncatedInput_iff m p e).1 h⟩
  | overflow => exact .inr ⟨rfl, (varintDecode_overflow_iff m p e).1 h⟩
  | illegalCommand => exact ((varintDecode_eq_err_iff m p e .illegalCommand).1 h).elim

/-! ### What the two commands leave -/

/-- On a varint of a 64-bit value that lies at OFFSET below ILEN, DEC and DECA record its value and length (R126,
R127). -/
theorem exec_decode_of_varint {i : Instr} {s : State} {bs : List Byte} (hi : i = .dec ∨ i = .deca)
    (hbs : IsVarint bs) (hvalue : varintValue bs < 2 ^ 64) (hbytes : BytesAt s.ibuf s.offset.toNat bs)
    (hend : s.offset.toNat + bs.length ≤ s.ilen.toNat) :
    exec i s = .next { s with
      out := BitVec.ofNat 64 (varintValue bs)
      cnt := BitVec.ofNat 4 bs.length
      offset := if i = .deca then s.offset + BitVec.ofNat 16 bs.length else s.offset
      status := s.status.terminated } :=
  exec_decode_of_ok hi (varintDecode_of_varint hbs hbytes hend hvalue)

/-- Where the buffer ends too early, DEC and DECA record TruncatedInput and leave all else, OFFSET too (R193). -/
theorem exec_decode_of_truncatedAt {i : Instr} {s : State} (hi : i = .dec ∨ i = .deca)
    (h : TruncatedAt s.ibuf s.offset.toNat s.ilen.toNat) :
    exec i s = .next { s with cnt := 0#4, status := { dstate := 2#2, err := 1#4, sticky := true } } :=
  exec_decode_of_err hi ((varintDecode_truncatedInput_iff _ _ _).2 h)

/-- Where the tenth byte does not fit, DEC and DECA record Overflow and leave all else, OFFSET too (R193). -/
theorem exec_decode_of_overflowAt {i : Instr} {s : State} (hi : i = .dec ∨ i = .deca)
    (h : OverflowAt s.ibuf s.offset.toNat s.ilen.toNat) :
    exec i s = .next { s with cnt := 0#4, status := { dstate := 2#2, err := 2#4, sticky := true } } :=
  exec_decode_of_err hi ((varintDecode_overflow_iff _ _ _).2 h)

/-- Where every byte its decode could need is written, a decode command answers a next state (R129, R236). -/
theorem exec_decode_next_of_readable {i : Instr} {s : State} (hi : i = .dec ∨ i = .deca)
    (hreadable : DecodeReadable s.ibuf s.offset.toNat s.ilen.toNat) : ∃ t, exec i s = .next t := by
  rcases exec_next_or_fault i s with hnext | ⟨-, k, -, hfault⟩
  · exact hnext
  · obtain ⟨n, hun⟩ := (exec_decode_fault_iff hi s).1 ⟨k, hfault⟩
    exact absurd hreadable hun.not_decodeReadable

end Sys2Proof.Machine
end

section
/-! The obligations of `spec/41_varint_decoder.md` on one decode. -/

open Sys2Proof Sys2Proof.Machine

/-- Settles O29: the answers' conditions exclude each other, so TruncatedInput comes exactly on its own. -/
theorem truncatedInputExactlyWhenTheBufferEnds : Obligations.TruncatedInputExactlyWhenTheBufferEnds :=
  varintDecode_truncatedInput_iff

/-- Settles O30: likewise for Overflow. -/
theorem overflowExactlyOnTheTenthByte : Obligations.OverflowExactlyOnTheTenthByte :=
  varintDecode_overflow_iff

/-- Settles O32: the condition of each answer carries over to a memory that agrees on the bytes it speaks of. -/
theorem decodeDependsOnlyOnTheBytesItReads : Obligations.DecodeDependsOnlyOnTheBytesItReads := by
  refine fun m m' p e => ⟨fun v c hok hagree => ?_, fun htrunc hagree => ?_, fun hover hagree => ?_,
    varintDecode_unwritten_iff m p e⟩
  · obtain ⟨bs, hbs, rfl, hbytes, hend, hvalue⟩ := (decodeSucceedsExactlyOnAVarint m p e v c).1 hok
    exact (decodeSucceedsExactlyOnAVarint m' p e v _).2 ⟨bs, hbs, rfl, hagree.bytesAt hbytes, hend, hvalue⟩
  · rw [varintDecode_truncatedInput_iff] at htrunc ⊢
    exact htrunc.of_agreeOn hagree
  · rwa [varintDecode_congr hagree]

/-- Settles O34: the equations of a decode command, for DEC. -/
theorem decRecordsItsDecode : Obligations.DecRecordsItsDecode := by
  refine ⟨decode_encode .dec, fun s => ⟨fun bs hbs hvalue hbytes hend => ?_, exec_decode_of_truncatedAt (.inl rfl),
    exec_decode_of_overflowAt (.inl rfl)⟩⟩
  have ⟨_, hmax, _⟩ := hbs
  exact ⟨BitVec.ofNat 64 (varintValue bs), BitVec.ofNat 4 bs.length, Nat.mod_eq_of_lt hvalue, consumed_toNat hmax,
    exec_decode_of_varint (.inl rfl) hbs hvalue hbytes hend⟩

/-- Settles O35: the equations of a decode command, for DECA; OFFSET does not wrap, since the varint ends at or below
ILEN. -/
theorem decaAdvancesPastTheVarint : Obligations.DecaAdvancesPastTheVarint := by
  refine ⟨decode_encode .deca, fun s => ⟨fun bs hbs hvalue hbytes hend => ?_, exec_decode_of_truncatedAt (.inr rfl),
    exec_decode_of_overflowAt (.inr rfl)⟩⟩
  have ⟨_, hmax, _⟩ := hbs
  exact ⟨BitVec.ofNat 64 (varintValue bs), BitVec.ofNat 4 bs.length, s.offset + BitVec.ofNat 16 bs.length,
    Nat.mod_eq_of_lt hvalue, consumed_toNat hmax, offset_add_consumed_toNat hend,
    exec_decode_of_varint (.inr rfl) hbs hvalue hbytes hend⟩

/-- Settles O36: no byte the decode needs is unwritten, and what it records is TERMINATED or ERROR. -/
theorem decodeCommandsCompleteOnWrittenBytes : Obligations.DecodeCommandsCompleteOnWrittenBytes := by
  intro i s hi hreadable
  obtain ⟨t, hnext⟩ := exec_decode_next_of_readable hi hreadable
  refine ⟨t, hnext, ?_⟩
  rcases exec_decode_cases hi hnext with ⟨v, c, -, rfl⟩ | ⟨e, -, hdecode, rfl⟩
  · exact .inl rfl
  · exact .inr (by simp [hdecode])

/-- Settles O37: an encoding is a varint of its operand. -/
theorem decodeUndoesEncode : Obligations.DecodeUndoesEncode := by
  intro s n i hi hbytes hend
  have hvalue := varintValue_varintEncode n
  refine ⟨_, exec_decode_of_varint hi (varintEncode_isVarint n) (hvalue ▸ n.isLt) hbytes hend, ?_,
    varintEncode_length_toNat n, rfl, rfl⟩
  simp [hvalue]

end

section
/-! SUPPORT. A byte string as varints one after another (`spec/41_varint_decoder.md` R131, R134): which bytes lie where,
and where a decode of the string has to end. -/

namespace Sys2Proof.Machine

/-! ### Bytes in a memory -/

/-- A string lies in a memory exactly when its two parts lie there one after the other. -/
theorem bytesAt_append {m : Memory} {p : Nat} {as bs : List Byte} :
    BytesAt m p (as ++ bs) ↔ BytesAt m p as ∧ BytesAt m (p + as.length) bs := by
  constructor
  · refine fun h => ⟨fun i hi => ?_, fun i hi => ?_⟩
    · rw [h i (by rw [List.length_append]; omega), List.getD_append _ _ _ _ hi]
    · rw [Nat.add_assoc, h _ (by rw [List.length_append]; omega), List.getD_append_right _ _ _ _ (by omega),
        Nat.add_sub_cancel_left]
  · rintro ⟨has, hbs⟩ i hi
    rw [List.length_append] at hi
    rcases Nat.lt_or_ge i as.length with hlow | hhigh
    · rw [has i hlow, List.getD_append _ _ _ _ hlow]
    · rw [List.getD_append_right _ _ _ _ hhigh, ← hbs _ (by omega), Nat.add_assoc, Nat.add_sub_cancel' hhigh]

/-- Of two strings that lie at one index the longer begins with the shorter. -/
theorem exists_append_of_bytesAt {m : Memory} {p : Nat} {as bs : List Byte} (has : BytesAt m p as)
    (hbs : BytesAt m p bs) (hlen : as.length ≤ bs.length) : ∃ tail, bs = as ++ tail := by
  have htake : bs.take as.length = as := by
    refine List.ext_getElem (List.length_take_of_le hlen) fun i _ hi => ?_
    have hread := (hbs i (by omega)).symm.trans (has i hi)
    simpa [hi, hi.trans_le hlen] using hread
  have hsplit := List.take_append_drop as.length bs
  rw [htake] at hsplit
  exact ⟨_, hsplit.symm⟩

/-! ### Varints one after another -/

/-- A varint of a 64-bit value: what a decode accepts (R124). -/
abbrev IsWordVarint (v : List Byte) : Prop := IsVarint v ∧ varintValue v < 2 ^ 64

/-- The word a varint stands for. -/
def wordOf (v : List Byte) : Word := BitVec.ofNat 64 (varintValue v)

theorem isWordVarint_varintEncode (n : Word) : IsWordVarint (varintEncode n) :=
  ⟨varintEncode_isVarint n, varintValue_varintEncode n ▸ n.isLt⟩

@[simp] theorem wordOf_varintEncode (n : Word) : wordOf (varintEncode n) = n := by
  simp [wordOf, varintValue_varintEncode]

theorem forall_isWordVarint_map_varintEncode (vs : List Word) : ∀ v ∈ vs.map varintEncode, IsWordVarint v :=
  List.forall_mem_map.2 fun n _ => isWordVarint_varintEncode n

theorem map_wordOf_map_varintEncode (vs : List Word) : (vs.map varintEncode).map wordOf = vs := by
  simp [Function.comp_def]

/-- Varints are no more than the bytes they take (R131: at most m times). -/
theorem length_le_length_flatten {vs : List (List Byte)} (h : ∀ v ∈ vs, IsWordVarint v) :
    vs.length ≤ vs.flatten.length := by
  rw [List.length_flatten, ← List.length_map (f := List.length)]
  refine List.length_le_sum_of_one_le _ (List.forall_mem_map.2 fun v hv => ?_)
  obtain ⟨⟨hpos, -⟩, -⟩ := h v hv
  exact hpos

/-- A string in a memory starts with varints, up to its end or to a place where a decode reports an error (R131). -/
theorem exists_varints_append {m : Memory} {p : Nat} {bs : List Byte} (hbytes : BytesAt m p bs) :
    ∃ (vs : List (List Byte)) (rest : List Byte), bs = vs.flatten ++ rest ∧ (∀ v ∈ vs, IsWordVarint v) ∧
      (rest = [] ∨ ∃ k, varintDecode m (p + vs.flatten.length) (p + bs.length) = .err k) := by
  induction hn : bs.length using Nat.strong_induction_on generalizing p bs with
  | _ n ih =>
    subst hn
    cases hdecode : varintDecode m p (p + bs.length) with
    | err k => exact ⟨[], bs, rfl, by simp, .inr ⟨k, by simpa using hdecode⟩⟩
    | unwritten k =>
      obtain ⟨n, -, hin, -, hread⟩ := (varintDecode_unwritten_iff m p _).1 ⟨k, hdecode⟩
      rw [hbytes n (by omega)] at hread
      cases hread
    | ok v c =>
      obtain ⟨b, hb, rfl, hbb, hend, hvalue⟩ := (decodeSucceedsExactlyOnAVarint m p _ v c).1 hdecode
      have ⟨hpos, _⟩ := hb
      obtain ⟨tail, rfl⟩ := exists_append_of_bytesAt hbb hbytes (by omega)
      obtain ⟨vs, rest, rfl, hvs, hrest⟩ := ih tail.length (by rw [List.length_append]; omega)
        (bytesAt_append.1 hbytes).2 rfl
      refine ⟨b :: vs, rest, by simp, List.forall_mem_cons.2 ⟨⟨hb, hvalue ▸ v.isLt⟩, hvs⟩, hrest.imp_right ?_⟩
      rintro ⟨k, hk⟩
      exact ⟨k, by simpa [Nat.add_assoc] using hk⟩

/-- Varints fill a buffer of `n` bytes to its end, or up to one that does not fit in what is left of it (R134). -/
theorem exists_varints_fit (vs : List (List Byte)) (n : Nat) :
    ∃ ws us, vs = ws ++ us ∧ ws.flatten.length ≤ n ∧
      (us = [] ∨ ∃ u us', us = u :: us' ∧ n < ws.flatten.length + u.length) := by
  induction vs generalizing n with
  | nil => exact ⟨[], [], rfl, Nat.zero_le n, .inl rfl⟩
  | cons v vs ih =>
    rcases Nat.lt_or_ge n v.length with hlong | hfits
    · exact ⟨[], v :: vs, rfl, Nat.zero_le n, .inr ⟨v, vs, rfl, by simpa using hlong⟩⟩
    · obtain ⟨ws, us, rfl, hws, hus⟩ := ih (n - v.length)
      refine ⟨v :: ws, us, rfl, by rw [List.flatten_cons, List.length_append]; omega, hus.imp_right ?_⟩
      rintro ⟨u, us', rfl, hu⟩
      exact ⟨u, us', rfl, by rw [List.flatten_cons, List.length_append]; omega⟩

/-- A buffer that ends inside a varint ends too early for its decode (R122). -/
theorem truncatedAt_of_take {m : Memory} {p k : Nat} {u : List Byte} (hu : IsVarint u) (hk : k < u.length)
    (hbytes : BytesAt m p (u.take k)) : TruncatedAt m p (p + k) := by
  obtain ⟨-, hmax, hrun, -⟩ := hu
  refine ⟨k, by omega, Nat.le_refl _, fun i hi => ?_⟩
  have hread := hbytes i (by rw [List.length_take]; omega)
  rw [hread, List.getD_eq_getElem _ _ (by rw [List.length_take]; omega), List.getElem_take,
    ← List.getD_eq_getElem _ 0#8]
  exact hrun i (by omega)

end Sys2Proof.Machine
end

section
/-! SUPPORT. The two loops of the host's stream decoders (`spec/41_varint_decoder.md` R131, R134). They go through the
same rounds, and differ in what they return at the end of the buffer, on an error and when their bound is met. -/

namespace Sys2Proof.Machine

/-! ### One round -/

/-- One round of R131 over a buffer of `m` bytes: at its end return `onEnd`; else issue DECA and return `onErr` of ERR
and the OFFSET before it, or go on with the decoded value. -/
def decodeRound {β : Type} (m : Nat) (onEnd : β) (onErr : BitVec 4 → Word → β)
    (more : Word → State → Host.Outcome (β × State) Fault Refusal) (s : State) :
    Host.Outcome (β × State) Fault Refusal :=
  andThen (readReg .offset s) fun o =>
  if o.1.toNat = m then .next (onEnd, o.2)
  else
    andThen (runLines [.cmd .deca] o.2) fun s =>
    andThen (readReg .status s) fun st =>
    if st.1.extractLsb' 4 4 ≠ errNone then .next (onErr (st.1.extractLsb' 4 4) o.1, st.2)
    else andThen (readReg .out st.2) fun v => more v.1 v.2

theorem decodeAllLoop_succ (m bound : Nat) (out : List Word) (s : State) :
    decodeAllLoop m (bound + 1) out s =
      decodeRound m (.ok out) (fun k _ => .err k) (fun v => decodeAllLoop m bound (out ++ [v])) s := rfl

theorem decodePieceLoop_succ (m bound : Nat) (out : List Word) (s : State) :
    decodePieceLoop m (bound + 1) out s =
      decodeRound m ⟨out, errNone, m⟩ (fun k o => ⟨out, k, o.toNat⟩)
        (fun v => decodePieceLoop m bound (out ++ [v])) s := rfl

section decodeRound
variable {β : Type} {m : Nat} {onEnd : β} {onErr : BitVec 4 → Word → β}
  {more : Word → State → Host.Outcome (β × State) Fault Refusal} {s : State}

/-- The round reads OFFSET as a word of the same number. -/
theorem offsetWord_toNat (s : State) : (s.offset.setWidth 64).toNat = s.offset.toNat :=
  BitVec.toNat_setWidth_of_le (by decide)

/-- At the end of the buffer the round issues no command. -/
theorem decodeRound_at_end (h : s.offset.toNat = m) :
    decodeRound m onEnd onErr more s = .next (onEnd, s.addRead (s.offset.setWidth 64)) := by
  rw [decodeRound, readReg_offset, andThen_next, if_pos ((offsetWord_toNat s).trans h)]

/-- Before the end the round goes by the ERR that DECA leaves. -/
theorem decodeRound_of_deca {t : State} {k : BitVec 4} (hm : s.offset.toNat ≠ m)
    (hdeca : exec .deca (s.addRead (s.offset.setWidth 64)) = .next t) (hk : t.status.err = k) :
    decodeRound m onEnd onErr more s =
      if k ≠ 0#4 then .next (onErr k (s.offset.setWidth 64), t.addRead t.status.word)
      else more t.out ((t.addRead t.status.word).addRead t.out) := by
  rw [decodeRound, readReg_offset, andThen_next, if_neg (by rwa [offsetWord_toNat]), runLines_cmd, hdeca, andThen_next,
    readReg_status, andThen_next, Status.word_err, hk, readReg_out, andThen_next]
  rfl

/-- On a varint of a 64-bit value the round goes on with its word, past the varint. -/
theorem decodeRound_of_varint {v : List Byte} (hm : s.ilen.toNat = m) (hv : IsWordVarint v)
    (hbytes : BytesAt s.ibuf s.offset.toNat v) (hend : s.offset.toNat + v.length ≤ m) :
    ∃ t, decodeRound m onEnd onErr more s = more (wordOf v) t ∧ t.ibuf = s.ibuf ∧ t.ilen = s.ilen ∧
      t.offset.toNat = s.offset.toNat + v.length := by
  subst hm
  obtain ⟨hvar, hvalue⟩ := hv
  have ⟨hpos, _⟩ := hvar
  have hdeca := exec_decode_of_varint (s := s.addRead (s.offset.setWidth 64)) (.inr rfl) hvar hvalue hbytes hend
  exact ⟨_, (decodeRound_of_deca (by omega) hdeca rfl).trans (if_neg (not_not.2 rfl)), rfl, rfl,
    offset_add_consumed_toNat hend⟩

/-- Where the decode reports an error the round records it and leaves OFFSET. -/
theorem decodeRound_of_err {e : ErrorKind} (hm : s.offset.toNat ≠ m)
    (herr : varintDecode s.ibuf s.offset.toNat s.ilen.toNat = .err e) :
    ∃ t, decodeRound m onEnd onErr more s = .next (onErr e.code (s.offset.setWidth 64), t) ∧ t.ibuf = s.ibuf ∧
      t.ilen = s.ilen ∧ t.offset = s.offset ∧ t.status.err = e.code := by
  have hdeca := exec_decode_of_err (s := s.addRead (s.offset.setWidth 64)) (.inr rfl) herr
  have herr' : (raise e (s.addRead (s.offset.setWidth 64))).status.err = e.code := by
    rw [raise_status, Status.raised_err]
  exact ⟨_, (decodeRound_of_deca hm hdeca herr').trans (if_pos e.code_ne_zero), raise_ibuf e _, raise_ilen e _,
    raise_offset e _, herr'⟩

end decodeRound

/-! ### All rounds -/

/-- What `load` leaves: the string lies in IBUF from byte 0, ILEN is its length, and OFFSET is 0 (R89). -/
structure Loaded (bs : List Byte) (s : State) : Prop where
  bytes : BytesAt s.ibuf 0 bs
  ilen : s.ilen.toNat = bs.length
  offset : s.offset = 0#16

/-- `load` of a string that fits completes, and leaves STATUS and CNT. -/
theorem runLines_load_loaded {bs : List Byte} {s : State} (h : bs.length ≤ s.config.ibufSize) :
    ∃ t, runLines (Pseudo.lines (.load bs)) s = .next t ∧ Loaded bs t ∧ t.status = s.status ∧ t.cnt = s.cnt := by
  obtain ⟨m, l, hrun, hbytes, hlen⟩ := runLines_load bs s h
  exact ⟨_, hrun, ⟨hbytes, hlen, rfl⟩, rfl, rfl⟩

section loop
variable {β : Type} {m : Nat} {onEnd : List Word → β} {onErr : List Word → BitVec 4 → Word → β}
  {loop : Nat → List Word → State → Host.Outcome (β × State) Fault Refusal}
  (hloop : ∀ bound out s, loop (bound + 1) out s =
    decodeRound m (onEnd out) (onErr out) (fun v => loop bound (out ++ [v])) s)
include hloop

/-- A loop goes on past the varints that lie at OFFSET, collecting their words. -/
theorem loop_of_varints {vs : List (List Byte)} {s : State} (bound : Nat) (out : List Word) (hm : s.ilen.toNat = m)
    (hvs : ∀ v ∈ vs, IsWordVarint v) (hbytes : BytesAt s.ibuf s.offset.toNat vs.flatten)
    (hend : s.offset.toNat + vs.flatten.length ≤ m) :
    ∃ t, loop (vs.length + bound) out s = loop bound (out ++ vs.map wordOf) t ∧ t.ibuf = s.ibuf ∧ t.ilen = s.ilen ∧
      t.offset.toNat = s.offset.toNat + vs.flatten.length := by
  induction vs generalizing s out with
  | nil => exact ⟨s, by simp, rfl, rfl, rfl⟩
  | cons v vs ih =>
    rw [List.flatten_cons, bytesAt_append] at hbytes
    rw [List.flatten_cons, List.length_append] at hend ⊢
    obtain ⟨hv, hvs⟩ := List.forall_mem_cons.1 hvs
    obtain ⟨hbv, hbvs⟩ := hbytes
    obtain ⟨s', hround, hibuf, hilen, hoffset⟩ := decodeRound_of_varint
      (onEnd := onEnd out) (onErr := onErr out) (more := fun w => loop (vs.length + bound) (out ++ [w]))
      hm hv hbv (by omega)
    obtain ⟨t, hrest, hibuf', hilen', hoffset'⟩ := ih (s := s') (out ++ [wordOf v]) (by rw [hilen, hm]) hvs
      (by rwa [hibuf, hoffset]) (by omega)
    refine ⟨t, ?_, hibuf'.trans hibuf, hilen'.trans hilen, by omega⟩
    rw [List.length_cons, Nat.add_right_comm, hloop, hround, hrest]
    simp

section loaded
variable {bs rest : List Byte} {vs : List (List Byte)} {s : State} (hs : Loaded bs s) (hm : bs.length = m)
  (hsplit : bs = vs.flatten ++ rest) (hvs : ∀ v ∈ vs, IsWordVarint v)
include hs hm hsplit hvs

/-- On a loaded string a loop with more rounds than bytes comes to the end of the varints it starts with, with rounds
left. -/
theorem loop_of_loaded : ∃ bound t, loop (m + 1) [] s = loop (bound + 1) (vs.map wordOf) t ∧ t.ibuf = s.ibuf ∧
    t.ilen.toNat = m ∧ t.offset.toNat = vs.flatten.length := by
  obtain ⟨hbytes, hilen, hoffset⟩ := hs
  have hzero : s.offset.toNat = 0 := congrArg BitVec.toNat hoffset
  have hcount := length_le_length_flatten hvs
  have hlen := congrArg List.length hsplit
  rw [List.length_append] at hlen
  rw [hsplit, bytesAt_append] at hbytes
  obtain ⟨t, hrun, hibuf', hilen', hoffset'⟩ := loop_of_varints hloop (m - vs.length + 1) [] (hilen.trans hm) hvs
    (hzero ▸ hbytes.1) (by omega)
  refine ⟨m - vs.length, t, ?_, hibuf', by rw [hilen', hilen, hm], by omega⟩
  rw [← List.nil_append (vs.map wordOf), ← hrun]
  congr 1
  omega

/-- A loop over varints alone returns at their end. -/
theorem loop_of_loaded_varints (hrest : rest = []) : ∃ t, loop (m + 1) [] s = .next (onEnd (vs.map wordOf), t) := by
  obtain ⟨bound, t, hrun, -, -, hoffset⟩ := loop_of_loaded hloop hs hm hsplit hvs
  rw [hrest, List.append_nil] at hsplit
  exact ⟨_, by rw [hrun, hloop, decodeRound_at_end (by rw [hoffset, ← hm, hsplit])]⟩

/-- Where the decode after the varints reports an error, a loop returns that error and leaves OFFSET there. -/
theorem loop_of_loaded_err {e : ErrorKind} (hrest : rest ≠ [])
    (herr : varintDecode s.ibuf vs.flatten.length m = .err e) :
    ∃ o t, loop (m + 1) [] s = .next (onErr (vs.map wordOf) e.code o, t) ∧ o.toNat = vs.flatten.length ∧
      t.ibuf = s.ibuf ∧ t.ilen.toNat = m ∧ t.offset.toNat = vs.flatten.length ∧ t.status.err = e.code := by
  obtain ⟨bound, t, hrun, hibuf, hilen, hoffset⟩ := loop_of_loaded hloop hs hm hsplit hvs
  have hne : t.offset.toNat ≠ m := by
    have hlen := congrArg List.length hsplit
    have hpos := List.length_pos_iff.2 hrest
    rw [List.length_append] at hlen
    omega
  obtain ⟨t', hround, hibuf', hilen', hoffset', herr'⟩ := decodeRound_of_err (onEnd := onEnd (vs.map wordOf))
    (onErr := onErr (vs.map wordOf)) (more := fun v => loop bound (vs.map wordOf ++ [v])) hne
    (by rw [hibuf, hilen, hoffset, herr])
  exact ⟨t.offset.setWidth 64, t', by rw [hrun, hloop, hround], (offsetWord_toNat t).trans hoffset,
    hibuf'.trans hibuf, by rw [hilen', hilen], by rw [hoffset', hoffset], herr'⟩

end loaded
end loop

end Sys2Proof.Machine
end

section
/-! SUPPORT. Decoding in pieces (`spec/41_varint_decoder.md` R134): a piece yields the varints it holds whole, and the
next one starts at the first byte after them. -/

namespace Sys2Proof.Machine

/-- A piece that ends with its varints, or inside one more, yields its varints and OFFSET after them. -/
theorem decodePieceLoop_of_loaded {bs tail : List Byte} {ws : List (List Byte)} {s : State} (hs : Loaded bs s)
    (hsplit : bs = ws.flatten ++ tail) (hws : ∀ w ∈ ws, IsWordVarint w)
    (htail : tail = [] ∨ ∃ u k, IsVarint u ∧ k < u.length ∧ tail = u.take k) :
    ∃ t, decodePieceLoop bs.length (bs.length + 1) [] s =
      .next (⟨ws.map wordOf, if tail = [] then errNone else ErrorKind.truncatedInput.code, ws.flatten.length⟩, t) := by
  have hloop := decodePieceLoop_succ bs.length
  by_cases hempty : tail = []
  · obtain ⟨t, hrun⟩ := loop_of_loaded_varints hloop hs rfl hsplit hws hempty
    refine ⟨t, ?_⟩
    rw [hrun, if_pos hempty, hsplit, hempty, List.append_nil]
  · obtain ⟨u, k, hu, hk, rfl⟩ := htail.resolve_left hempty
    have hbytes := hs.bytes
    have htrunc : TruncatedAt s.ibuf ws.flatten.length bs.length := by
      rw [hsplit, bytesAt_append, Nat.zero_add] at hbytes
      rw [hsplit, List.length_append, List.length_take_of_le hk.le]
      exact truncatedAt_of_take hu hk hbytes.2
    obtain ⟨o, t, hrun, ho, -⟩ := loop_of_loaded_err hloop hs rfl hsplit hws hempty
      ((varintDecode_truncatedInput_iff _ _ _).2 htrunc)
    exact ⟨t, by rw [hrun, if_neg hempty, ho]⟩

/-- One piece of the decoder of long streams: its varints are collected, and it is the last one, or the next one
starts after them. -/
theorem decodePieces_succ {bs tail : List Byte} {ws : List (List Byte)} {s : State} (bound : Nat) (out : List Word)
    (hsplit : bs.take s.config.ibufSize = ws.flatten ++ tail) (hws : ∀ w ∈ ws, IsWordVarint w)
    (htail : tail = [] ∨ bs.drop s.config.ibufSize ≠ [] ∧ ∃ u k, IsVarint u ∧ k < u.length ∧ tail = u.take k) :
    ∃ t, decodePieces (bound + 1) out bs s =
      if bs.drop s.config.ibufSize = [] then .next (.ok (out ++ ws.map wordOf), t)
      else decodePieces bound (out ++ ws.map wordOf) (bs.drop ws.flatten.length) t := by
  obtain ⟨s', hload, hs', -⟩ := runLines_load_loaded (s := s) (List.length_take_le s.config.ibufSize bs)
  obtain ⟨t, hpiece⟩ := decodePieceLoop_of_loaded hs' hsplit hws (htail.imp_right And.right)
  refine ⟨t, ?_⟩
  simp only [decodePieces, hload, hpiece, andThen_next]
  by_cases hempty : tail = []
  · simp [hempty]
  · obtain ⟨hmore, -⟩ := htail.resolve_left hempty
    simp [hempty, hmore, errNone]

/-- The decoder of long streams returns the words of the varints the stream is made of (R134): each piece but the last
holds at least one of them whole. -/
theorem decodePieces_of_varints {vs : List (List Byte)} {bound : Nat} (out : List Word) (s : State)
    (hvs : ∀ v ∈ vs, IsWordVarint v) (hbound : vs.flatten.length < bound) :
    ∃ t, decodePieces bound out vs.flatten s = .next (.ok (out ++ vs.map wordOf), t) := by
  induction bound generalizing vs out s with
  | zero => omega
  | succ bound ih =>
    obtain ⟨ws, us, rfl, hfit, hus⟩ := exists_varints_fit vs s.config.ibufSize
    obtain ⟨hws, hus'⟩ := List.forall_mem_append.1 hvs
    rw [List.flatten_append] at hbound ⊢
    rcases hus with rfl | ⟨u, us, rfl, hlong⟩
    · obtain ⟨t, hpiece⟩ := decodePieces_succ (bs := ws.flatten) (tail := []) bound out
        (by rw [List.append_nil, List.take_of_length_le hfit]) hws (.inl rfl)
      refine ⟨t, ?_⟩
      rw [List.flatten_nil, List.append_nil, List.append_nil, hpiece, if_pos (List.drop_eq_nil_iff.2 hfit)]
    · obtain ⟨⟨hu, -⟩, -⟩ := List.forall_mem_cons.1 hus'
      have ⟨_, hmax, _⟩ := hu
      have hsize := s.config.atLeast
      have hmore : (ws.flatten ++ (u :: us).flatten).drop s.config.ibufSize ≠ [] := by
        simp only [ne_eq, List.drop_eq_nil_iff, List.length_append, List.flatten_cons]
        omega
      obtain ⟨t, hpiece⟩ := decodePieces_succ (bs := ws.flatten ++ (u :: us).flatten)
        (tail := u.take (s.config.ibufSize - ws.flatten.length)) bound out
        (by rw [List.take_append, List.take_of_length_le hfit, List.flatten_cons,
          List.take_append_of_le_length (by omega)]) hws
        (.inr ⟨hmore, u, _, hu, by omega, rfl⟩)
      rw [List.length_append] at hbound
      obtain ⟨t', hrest⟩ := ih (out ++ ws.map wordOf) t hus' (by omega)
      refine ⟨t', ?_⟩
      rw [hpiece, if_neg hmore, List.drop_left, hrest, List.map_append, List.append_assoc]

end Sys2Proof.Machine
end

section
/-! The obligations of `spec/41_varint_decoder.md` on streams. -/

open Sys2Proof Sys2Proof.Machine

/-- Settles O39: the encodings are varints, so DECODE_ALL comes to their end; on the empty string it is there at
once. -/
theorem streamDecodeUndoesStreamEncode : Obligations.StreamDecodeUndoesStreamEncode := by
  refine ⟨fun vs s hfit => ?_, fun s => ?_⟩
  · obtain ⟨s', hload, hs', -⟩ := runLines_load_loaded hfit
    obtain ⟨t, hrun⟩ := loop_of_loaded_varints (decodeAllLoop_succ _) hs' rfl (List.append_nil _).symm
      (forall_isWordVarint_map_varintEncode vs) rfl
    exact ⟨t, by rw [decodeAll, hload, andThen_next, hrun, map_wordOf_map_varintEncode]⟩
  · obtain ⟨s', hload, hs', hstatus, hcnt⟩ := runLines_load_loaded (bs := []) (Nat.zero_le s.config.ibufSize)
    refine ⟨s'.addRead (s'.offset.setWidth 64), ?_, hstatus, hcnt⟩
    rw [decodeAll, hload, andThen_next, decodeAllLoop_succ, decodeRound_at_end (by simp [hs'.offset])]

/-- Settles O40: the string starts with varints up to its end or up to a decode that reports an error, and the loop
goes just as far. -/
theorem streamDecodeEndsAndExposesThePrefix : Obligations.StreamDecodeEndsAndExposesThePrefix := by
  intro bs s hfit
  obtain ⟨s', hload, hs', -⟩ := runLines_load_loaded hfit
  obtain ⟨vs, rest, hsplit, hvs, hrest⟩ := exists_varints_append hs'.bytes
  rw [decodeAll, hload, andThen_next]
  by_cases hempty : rest = []
  · obtain ⟨t, hrun⟩ := loop_of_loaded_varints (decodeAllLoop_succ _) hs' rfl hsplit hvs hempty
    exact ⟨_, t, hrun, by simp, by simp⟩
  · obtain ⟨e, herr⟩ := hrest.resolve_left hempty
    rw [Nat.zero_add, Nat.zero_add] at herr
    obtain ⟨o, t, hrun, -, hibuf, hilen, hoffset, hcode⟩ :=
      loop_of_loaded_err (decodeAllLoop_succ _) hs' rfl hsplit hvs hempty herr
    refine ⟨_, t, hrun, by simp, ?_⟩
    rintro k hk
    obtain rfl := StreamResult.err.inj hk
    have hlen := congrArg List.length hsplit
    have hpos := List.length_pos_iff.2 hempty
    rw [List.length_append] at hlen
    have htake : vs.flatten = bs.take vs.flatten.length := by rw [hsplit, List.take_left]
    rw [hibuf, hilen, hoffset]
    rcases varintDecode_err_cases herr with ⟨he, htrunc⟩ | ⟨he, hover⟩
    · exact ⟨.inl he, hcode, hs'.bytes, rfl, by omega, fun _ => htrunc,
        fun he' => absurd (he.symm.trans he') (by decide), vs, hvs, htake⟩
    · exact ⟨.inr he, hcode, hs'.bytes, rfl, by omega, fun he' => absurd (he.symm.trans he') (by decide),
        fun _ => hover, vs, hvs, htake⟩

/-- Settles O41: the encodings are varints, and a stream has fewer pieces than bytes and one. -/
theorem longStreamsDecodeInPieces : Obligations.LongStreamsDecodeInPieces := by
  intro vs s
  have hpieces := decodePieces_of_varints [] s (forall_isWordVarint_map_varintEncode vs) (Nat.lt_succ_self _)
  rwa [map_wordOf_map_varintEncode] at hpieces

end

section
/-! SUPPORT. The ZigZag transforms as integer maps (`spec/42_zigzag.md` R158), at any width: the closed form of the
encoding and, since decoding undoes it, that of the decoding. The two widths compute the same maps (R160). -/

namespace Sys2Proof.Machine

/-! ### Encode and decode undo each other at each width -/

@[simp] theorem zzDec32_zzEnc32 (n : BitVec 32) : zzDec32 (zzEnc32 n) = n := zigzagDecode_zigzagEncode n _ rfl

@[simp] theorem zzEnc32_zzDec32 (u : BitVec 32) : zzEnc32 (zzDec32 u) = u := zigzagEncode_zigzagDecode u _ rfl

@[simp] theorem zzDec64_zzEnc64 (n : Word) : zzDec64 (zzEnc64 n) = n := zigzagDecode_zigzagEncode n _ rfl

@[simp] theorem zzEnc64_zzDec64 (u : Word) : zzEnc64 (zzDec64 u) = u := zigzagEncode_zigzagDecode u _ rfl

/-! ### The closed forms -/

/-- Shifting right by all bits but one, with the sign, leaves all ones for a negative value and zero for any other. -/
theorem sshiftRight_sign {w : Nat} (n : BitVec w) :
    n.sshiftRight (w - 1) = if n.msb then BitVec.allOnes w else 0#w := by
  apply BitVec.eq_of_getLsbD_eq
  intro j hj
  rw [getLsbD_sshiftRight_sign hj]
  cases n.msb <;> simp [hj]

/-- The ZigZag encoding of `x`, as an integer (R158). -/
def zigzagInt (x : Int) : Int := if 0 ≤ x then 2 * x else -2 * x - 1

/-- Encoding doubles the value and, for a negative one, complements the result (R150, R151, R158). -/
theorem toNat_zigzagEncode {w : Nat} (n : BitVec w) :
    (((n <<< 1) ^^^ n.sshiftRight (w - 1)).toNat : Int) = zigzagInt n.toInt := by
  rw [sshiftRight_sign, BitVec.msb_eq_toInt, zigzagInt]
  by_cases hsign : 0 ≤ n.toInt
  · have hhalf := BitVec.toInt_pos_iff.1 hsign
    rw [if_pos hsign, decide_eq_false (not_lt.2 hsign), if_neg Bool.false_ne_true, BitVec.xor_zero,
      BitVec.toNat_shiftLeft, Nat.shiftLeft_eq, BitVec.toInt_eq_toNat_of_lt hhalf, Nat.mod_eq_of_lt (by omega)]
    omega
  · have hwidth := n.isLt
    have hneg := not_le.1 hsign
    have hhalf := BitVec.toInt_neg_iff.1 hneg
    rw [if_neg hsign, decide_eq_true hneg, if_pos rfl, BitVec.xor_allOnes, BitVec.toNat_not, BitVec.toNat_shiftLeft,
      Nat.shiftLeft_eq, Nat.mod_eq_sub_mod (by omega), Nat.mod_eq_of_lt (by omega), BitVec.toInt_eq_toNat_cond,
      if_neg (by omega)]
    omega

theorem toNat_zzEnc32 (n : BitVec 32) : ((zzEnc32 n).toNat : Int) = zigzagInt n.toInt := toNat_zigzagEncode n

theorem toNat_zzEnc64 (n : Word) : ((zzEnc64 n).toNat : Int) = zigzagInt n.toInt := toNat_zigzagEncode n

/-- The closed form of the encoding, solved for the encoded value, by the parity of the encoding (R158). -/
theorem eq_of_zigzagInt {u : Nat} {x : Int} (h : (u : Int) = zigzagInt x) :
    x = if u % 2 = 0 then (u : Int) / 2 else -(((u : Int) + 1) / 2) := by
  rw [zigzagInt] at h
  split at h
  · rw [if_pos (by omega)]
    omega
  · rw [if_neg (by omega)]
    omega

/-- A word is the encoding of its decoding, so the closed form of the encoding gives that of the decoding (R158). -/
theorem toInt_zzDec32 (u : BitVec 32) : (zzDec32 u).toInt =
    if u.toNat % 2 = 0 then (u.toNat : Int) / 2 else -(((u.toNat : Int) + 1) / 2) :=
  eq_of_zigzagInt (by rw [← toNat_zzEnc32, zzEnc32_zzDec32])

theorem toInt_zzDec64 (u : Word) : (zzDec64 u).toInt =
    if u.toNat % 2 = 0 then (u.toNat : Int) / 2 else -(((u.toNat : Int) + 1) / 2) :=
  eq_of_zigzagInt (by rw [← toNat_zzEnc64, zzEnc64_zzDec64])

/-! ### The two widths compute the same maps -/

/-- Encoding commutes with widening: a value's sign extension is the same integer (R160). -/
theorem setWidth_zzEnc32 (n : BitVec 32) : (zzEnc32 n).setWidth 64 = zzEnc64 (n.signExtend 64) := by
  apply BitVec.eq_of_toNat_eq
  apply Int.ofNat_inj.1
  rw [BitVec.toNat_setWidth_of_le (by decide), toNat_zzEnc32, toNat_zzEnc64, BitVec.toInt_signExtend_of_le (by decide)]

/-- Decoding commutes with widening: an encoding's zero extension is the same number (R160). -/
theorem signExtend_zzDec32 (u : BitVec 32) : (zzDec32 u).signExtend 64 = zzDec64 (u.setWidth 64) := by
  rw [← zzDec64_zzEnc64 ((zzDec32 u).signExtend 64), ← setWidth_zzEnc32, zzEnc32_zzDec32]

/-- The low half of a zero-extended word is the word. -/
theorem lowHalf_setWidth (u : BitVec 32) : (u.setWidth 64).extractLsb' 0 32 = u := by
  rw [BitVec.extractLsb'_setWidth_of_le (by decide), BitVec.extractLsb'_eq_self]

end Sys2Proof.Machine
end

section
/-! SUPPORT. The host's chains for signed values (`spec/42_zigzag.md` R161, `spec/30_encoding.md` R89). -/

namespace Sys2Proof.Machine

/-- `wr IN, v` and then a command runs the command with `v` in IN (R88, R89). -/
theorem runLines_wrIn_cmd (v : Int) (i : Instr) (s : State) :
    runLines [.wr .inReg v, .cmd i] s = exec i (s.setIn (BitVec.ofInt 64 v)) := by
  have hcons : runLines [.wr .inReg v, .cmd i] s = runLines [.cmd i] (s.setIn (BitVec.ofInt 64 v)) := by
    simp only [runLines, List.map_cons, AsmLine.access, runAccesses, performAccess, RegName.addr, busWrite_inAddr,
      andThen_next]
  rw [hcons, runLines_cmd]

/-- The host's signed encode completes with the varint of the ZigZag encoding (R161). -/
theorem encodeSigned_next (v : Int) (s : State) :
    ∃ t, encodeSigned v s = .next (varintEncode (zzEnc64 (BitVec.ofInt 64 v)), t) := by
  rw [encodeSigned, Pseudo.lines, runLines_wrIn_cmd, exec_zze64, andThen_next, readReg_out, andThen_next]
  exact streamEncodeOne_next _ _

/-- The host's signed decode goes from the word that DECA leaves in OUT to the value it encodes (R161). -/
theorem decodeSigned_of_deca {s t : State} (hdeca : exec .deca s = .next t) :
    ∃ u, decodeSigned s = .next (zzDec64 t.out, u) := by
  rw [decodeSigned, Pseudo.lines, runLines_cmd, hdeca, andThen_next, readReg_out, andThen_next, Pseudo.lines,
    runLines_wrIn_cmd, BitVec.ofInt_natCast, BitVec.ofNat_toNat, BitVec.setWidth_eq, exec_zzd64, andThen_next,
    readReg_out]
  exact ⟨_, rfl⟩

end Sys2Proof.Machine
end

section
/-! The obligations of `spec/42_zigzag.md`. -/

open Sys2Proof Sys2Proof.Machine

/-- Settles O43: the closed form of the encoding, and its inverse. -/
theorem zigzagClosedForms : Obligations.ZigzagClosedForms :=
  ⟨toNat_zzEnc32, toNat_zzEnc64, toInt_zzDec32, toInt_zzDec64⟩

/-- Settles O44: the inverses as functions; OUT of ZZE32 is zero above its low half, so nothing is lost on the way
through IN. -/
theorem zigzagInverses : Obligations.ZigzagInverses := by
  refine ⟨fun n => ⟨zzDec32_zzEnc32 n, zzEnc32_zzDec32 n⟩, fun n => ⟨zzDec64_zzEnc64 n, zzEnc64_zzDec64 n⟩,
    fun s => ⟨_, _, exec_zze32 s, exec_zzd32 _, ?_⟩, fun s => ⟨_, _, exec_zze64 s, exec_zzd64 _, ?_⟩⟩
  · simp only [State.setStatus_out, State.setOut_out, lowHalf_setWidth, zzDec32_zzEnc32]
  · simp only [State.setStatus_out, State.setOut_out, zzDec64_zzEnc64]

/-- Settles O45: encoding and decoding commute with widening. -/
theorem zigzagWidthsAgree : Obligations.ZigzagWidthsAgree := by
  refine ⟨setWidth_zzEnc32, signExtend_zzDec32,
    fun s => ⟨_, _, _, exec_zze32 s, exec_zzd32 _, exec_zzd64 _, ?_⟩⟩
  simp only [State.setStatus_out, State.setOut_out, lowHalf_setWidth, signExtend_zzDec32]

/-- Settles O46: 32 bits fit in five groups, and the host's chains run the commands whose results compose to the
encoding and to its inverse. -/
theorem zigzagResultsEncodeShort : Obligations.ZigzagResultsEncodeShort := by
  refine ⟨fun s => ?_, fun s v => encodeSigned_next v s, by decide, fun s v hbytes hend => ?_⟩
  · have hlow : ((zzEnc32 (s.inReg.extractLsb' 0 32)).setWidth 64).toNat < 2 ^ 32 := by
      rw [BitVec.toNat_setWidth_of_le (by decide)]
      exact BitVec.isLt _
    exact ⟨_, exec_zze32 s, hlow, (varintEncode_length_le_iff _ (by decide)).2 (hlow.trans (by decide))⟩
  · obtain ⟨t, hdeca, hout, -⟩ := decodeUndoesEncode s (zzEnc64 v) .deca (.inr rfl) hbytes hend
    obtain ⟨u, hdecode⟩ := decodeSigned_of_deca hdeca
    exact ⟨u, by rw [hdecode, hout, zzDec64_zzEnc64]⟩

/-- Settles O42: the equations of the four commands, with the transforms written out. -/
theorem zigzagCommandsWriteTheirResult : Obligations.ZigzagCommandsWriteTheirResult := by
  refine ⟨decode_encode .zze32, decode_encode .zze64, decode_encode .zzd32, decode_encode .zzd64, ?_⟩
  rintro s _ rfl
  exact ⟨exec_zze32 s, exec_zze64 s, exec_zzd32 s, exec_zzd64 s⟩

end

section
/-! The obligations of `spec/43_control.md`. -/

open Sys2Proof Sys2Proof.Machine

/-- Settles O47: a word with zero reserved bits is its opcode, so with OPCODE 0 it is the zero word. -/
theorem nopChangesNothing : Obligations.NopChangesNothing := by
  refine ⟨exec_nop, fun d hop hne => decode_of_reservedField_ne fun hres => hne ?_, decode_encode .nop⟩
  have hopcode : opcodeField d = 0x00#8 := hop
  calc d
    _ = (opcodeField d).setWidth 64 := (setWidth_opcodeField hres).symm
    _ = 0#64 := by rw [hopcode, BitVec.setWidth_zero]

/-- Settles O48: CLRS replaces STATUS by the cleared one. -/
theorem clrsClearsStatusOnly : Obligations.ClrsClearsStatusOnly :=
  ⟨decode_encode .clrs, exec_clrs⟩

/-- Settles O49: SRST is power-on reset with IBUF put back, so it clears the registers. -/
theorem srstIsPowerOnExceptIbuf : Obligations.SrstIsPowerOnExceptIbuf := by
  refine ⟨decode_encode .srst, fun s => ⟨_, exec_srst s, rfl, ?_⟩⟩
  have hclear := softReset_registersCleared s
  exact ⟨hclear.inReg, hclear.out, hclear.cnt, hclear.elen, hclear.offset, hclear.ilen, hclear.ebuf_getElem,
    hclear.status⟩

end

section
/-! SUPPORT. Errors (`spec/60_exceptions.md`): the state after `raise` for each sort of kind (R193), and the tenth byte
of a decode that makes it overflow (R195). -/

namespace Sys2Proof.Machine

/-- A decode error replaces STATUS as a whole and clears CNT (R193). -/
theorem raise_of_isDecodeError {e : ErrorKind} (he : e.isDecodeError = true) (s : State) :
    raise e s = (s.setStatus { dstate := 2#2, err := e.code, sticky := true }).setCnt 0#4 := by
  simp only [raise, Status.raised, he, if_true, dstateError]

/-- An illegal command keeps DSTATE and CNT (R193). -/
theorem raise_illegalCommand (s : State) :
    raise .illegalCommand s = s.setStatus { s.status with err := 3#4, sticky := true } := rfl

/-- Nine continuation bytes and then a written tenth byte that fails the tenth-byte test: Overflow, wherever above that
byte the buffer ends (R123, R195). -/
theorem varintDecode_overflow_of_tenthByte {m : Memory} {p e : Nat} {b : Byte} (hrun : ContinuationRun m p 9)
    (hread : Memory.read m (p + 9) = some b) (hover : tenthByteOverflows b = true) (hend : p + 10 ≤ e) :
    varintDecode m p e = .err .overflow :=
  (varintDecode_overflow_iff m p e).2 ⟨hrun, hend, by rw [hread]; exact hover⟩

end Sys2Proof.Machine
end

section
/-! The obligations of `spec/60_exceptions.md`. -/

open Sys2Proof Sys2Proof.Machine

/-- Settles O33: a run of nine that ends the buffer is the condition of TruncatedInput; bit 7 and bits 6:1 are the two
ways for the tenth byte to overflow. -/
theorem decodeReportsTheFirstCondition : Obligations.DecodeReportsTheFirstCondition := by
  refine fun m p e hrun => ⟨fun hend => ?_, fun hten hend => ?_, fun b hread hbits hend => ?_⟩
  · exact (varintDecode_truncatedInput_iff m p e).2 ⟨9, by decide, hend.le, hrun⟩
  · obtain ⟨b, hread, hcont⟩ := continues_of_continuationRun hten (i := 9) (by decide)
    exact varintDecode_overflow_of_tenthByte hrun hread (by simp [tenthByteOverflows, hcont]) hend
  · exact varintDecode_overflow_of_tenthByte hrun hread (by simp [tenthByteOverflows, hbits]) hend

/-- Settles O50: the two decode errors by their shared equation, the illegal command by its own. -/
theorem raiseRecordsTheErrorOnly : Obligations.RaiseRecordsTheErrorOnly :=
  fun s => ⟨raise_of_isDecodeError rfl s, raise_of_isDecodeError rfl s, raise_illegalCommand s⟩

end

section
/-! SUPPORT. How long OUT and EBUF hold their values (`spec/70_reset_and_hazards.md` R232, R233): the commands that leave
each, from the write-set table of R39. -/

namespace Sys2Proof.Machine

/-- NOP, ENC and CLRS leave OUT (R233). -/
theorem exec_out {i : Instr} {s t : State} (h : exec i s = .next t) (hi : i = .nop ∨ i = .enc ∨ i = .clrs) :
    t.out = s.out := by
  rcases hi with rfl | rfl | rfl
  · cases (exec_nop s).symm.trans h
    rfl
  · cases (exec_enc s).symm.trans h
    rfl
  · cases (exec_clrs s).symm.trans h
    rfl

/-- A decode that leaves an error in ERR has failed, and raising its error leaves OUT (R233). -/
theorem exec_decode_out_of_err {i : Instr} {s t : State} (h : exec i s = .next t) (hi : i = .dec ∨ i = .deca)
    (herr : t.status.err ≠ 0#4) : t.out = s.out := by
  rcases exec_decode_cases hi h with ⟨v, c, -, rfl⟩ | ⟨e, -, -, rfl⟩
  · exact absurd rfl herr
  · simp

/-- Only ENC and SRST write EBUF (R34, R233). -/
theorem exec_ebuf {i : Instr} {s t : State} (h : exec i s = .next t) (henc : i ≠ .enc) (hsrst : i ≠ .srst) :
    t.ebuf = s.ebuf := by
  cases exec_effect h with
  | enc => exact absurd rfl henc
  | srst => exact absurd rfl hsrst
  | _ => simp

end Sys2Proof.Machine
end

section
/-! The obligations of `spec/70_reset_and_hazards.md`. -/

open Sys2Proof Sys2Proof.Machine

/-- Settles O21: a write to any address but CMD keeps the results, and so do the commands that do not write them. -/
theorem resultsHoldUntilTheNextCommand : Obligations.ResultsHoldUntilTheNextCommand := by
  refine ⟨fun s t a d ha hwrite => ?_, fun i s t h hsrst => ⟨exec_out h, exec_decode_out_of_err h, ?_, ?_⟩⟩
  · obtain ⟨hout, hcnt, helen, hstatus, hebuf⟩ := busWrite_sameResults ha hwrite
    exact ⟨hout, hcnt, hebuf, helen, hstatus⟩
  · exact fun hdec hdeca => exec_cnt h hdec hdeca hsrst
  · exact fun henc => ⟨exec_ebuf h henc hsrst, exec_elen h henc hsrst⟩

/-- Settles O52: power-on reset takes the build and the host's fields from the state, and the rest from
`State.powerOn`. -/
theorem powerOnResetFromAnyState : Obligations.PowerOnResetFromAnyState := by
  intro s rest hq
  calc step s
    _ = performEvent .powerOnReset (s.setQueue rest) := step_of_event hq
    _ = .next { State.powerOn s.config with hostQueue := rest, hostReads := s.hostReads } := rfl

end
